-- ==== Sys2Proof/Word.lean ====
section
/-! DEFINITION. The word types of the core (R3, R10): 32-bit registers, addresses and instructions, 8-bit bytes, and the 5-bit
register index of an instruction's operand fields (R14, R20). -/

namespace Sys2Proof

/-- A 32-bit word: register, CSR, pc, address, immediate or raw instruction (R3, R10). -/
abbrev Word := BitVec 32

/-- One byte of memory (R40). -/
abbrev Byte := BitVec 8

/-- A register operand: the 5-bit field that indexes the 32 general registers (R14, R20). -/
abbrev RegIdx := BitVec 5

/-- A CSR address: the 12-bit field `inst[31:20]`, read unsigned (R68, R42). -/
abbrev CsrAddr := BitVec 12

/-- The three access widths "byte/half/word" (R48). -/
inductive Width where
  | byte
  | half
  | word
deriving DecidableEq, Repr

/-- The number of bytes an access of this width moves (R48). -/
def Width.bytes : Width → Nat
  | .byte => 1
  | .half => 2
  | .word => 4

end Sys2Proof
end

