-- ==== Sys2Proof/Config.lean ====
section
/-! DEFINITION. The parameters a model of the core takes (R7): the optional groups of the pattern table, `SEL_REG`,
`TRAP_DISPATCH`, `PLAIN`, and the launch values `RESET_PC`, `GPR_INIT`, `CSR_INIT`, `MEM_INIT`. Only their TYPES stand here,
as plain data: State carries one value of `Params`, so that a claim about every state is a claim about every value of the
parameters. The values the model starts from stand in Machine/ResetValues.lean. -/

namespace Sys2Proof

/-- The groups of rows of the pattern table (R70): `core` always, the other four by parameter. -/
inductive Group where
  | core
  | csrFull
  | ebreak
  | fence
  | mulDiv
deriving DecidableEq, Repr

/-- The four group parameters `EXT_CSR_FULL`, `EXT_EBREAK`, `EXT_FENCE`, `EXT_M` (R7, R8). -/
structure Groups where
  csrFull : Bool
  ebreak : Bool
  fence : Bool
  mulDiv : Bool
deriving DecidableEq, Repr

/-- Whether the table holds the rows of a group (R70: the core rows always, the others if the parameter is true). -/
def Groups.has (g : Groups) : Group → Bool
  | .core => true
  | .csrFull => g.csrFull
  | .ebreak => g.ebreak
  | .fence => g.fence
  | .mulDiv => g.mulDiv

/-- Turn one group's parameter on. -/
def Groups.enable (g : Groups) : Group → Groups
  | .core => g
  | .csrFull => { g with csrFull := true }
  | .ebreak => { g with ebreak := true }
  | .fence => { g with fence := true }
  | .mulDiv => { g with mulDiv := true }

/-- Every optional group off: the default of R7. -/
def Groups.coreOnly : Groups := ⟨false, false, false, false⟩

/-- Every optional group on: the whole of the opcode table. -/
def Groups.all : Groups := ⟨true, true, true, true⟩

/-- A range of addresses that is NOT plain memory (R50): `size` bytes from `base`, modulo 2^32. -/
structure Region where
  base : Word
  size : Nat
deriving DecidableEq, Repr

/-- One value of the host's resume function: `f(kind, epc) = resume` (R233). -/
structure ResumeEntry where
  kind : Word
  epc : Word
  resume : Word
deriving DecidableEq, Repr

/-- The host's function `f : (kind, epc) → resume PC` of `HostResume(f)` (R233), as plain data: the first entry for the pair,
else `otherwise`. Every function of two words can be written so; a claim about every state holds for every `f`. -/
structure ResumeMap where
  entries : List ResumeEntry
  otherwise : Word
deriving DecidableEq, Repr

/-- `TRAP_DISPATCH` (R233): the core's own `MachineEntry`, or `HostResume(f)`, or any other function from (kind, epc, s) to a resume PC
and new values of mepc and mcause, named by a number (`customDispatch` of Machine/Ops.lean; log entry 8). -/
inductive TrapDispatch where
  | machineEntry
  | hostResume (f : ResumeMap)
  | custom (id : Nat)
deriving DecidableEq, Repr

/-- The parameters of the step (R7, R38). `devices` lists what the predicate `PLAIN` excludes (R50); the empty list is the
default "every address". -/
structure Params where
  groups : Groups
  selReg : RegIdx
  trapDispatch : TrapDispatch
  devices : List Region
deriving DecidableEq, Repr

/-- What the loader decides before the first step (R39, R260): `RESET_PC`, `GPR_INIT`, `CSR_INIT`, `MEM_INIT` (as a list of
bytes placed in order), and the parameters of the core it launches. -/
structure Launch where
  resetPc : Word
  gprInit : Vector Word 32
  mstatusInit : Word
  mtvecInit : Word
  mepcInit : Word
  mcauseInit : Word
  memInit : List (Word × Byte)
  params : Params
deriving DecidableEq, Repr

end Sys2Proof
end

