-- ==== Sys2Proof/Syntax.lean ====
section
/-! DEFINITION. The instructions: one constructor for each of the 56 rows of spec/opcode_table.json, in the table's order.
Immediates are the 32-bit values the layouts decode (R63 to R67); which values an encoding admits is WellFormed.lean. -/

namespace Sys2Proof

/-- An instruction with its operands (R61, R62, R68). `imm` is the layout's immediate as a 32-bit value. -/
inductive Instr where
  -- U and J layouts, jalr (R101, R102, R151, R152)
  | lui (rd : RegIdx) (imm : Word)
  | auipc (rd : RegIdx) (imm : Word)
  | jal (rd : RegIdx) (imm : Word)
  | jalr (rd rs1 : RegIdx) (imm : Word)
  -- branches, B layout (R153 to R158)
  | beq (rs1 rs2 : RegIdx) (imm : Word)
  | bne (rs1 rs2 : RegIdx) (imm : Word)
  | blt (rs1 rs2 : RegIdx) (imm : Word)
  | bge (rs1 rs2 : RegIdx) (imm : Word)
  | bltu (rs1 rs2 : RegIdx) (imm : Word)
  | bgeu (rs1 rs2 : RegIdx) (imm : Word)
  -- loads, I layout (R131 to R135)
  | lb (rd rs1 : RegIdx) (imm : Word)
  | lh (rd rs1 : RegIdx) (imm : Word)
  | lw (rd rs1 : RegIdx) (imm : Word)
  | lbu (rd rs1 : RegIdx) (imm : Word)
  | lhu (rd rs1 : RegIdx) (imm : Word)
  -- stores, S layout (R136 to R138)
  | sb (rs1 rs2 : RegIdx) (imm : Word)
  | sh (rs1 rs2 : RegIdx) (imm : Word)
  | sw (rs1 rs2 : RegIdx) (imm : Word)
  -- OP-IMM, I layout (R103 to R111)
  | addi (rd rs1 : RegIdx) (imm : Word)
  | slti (rd rs1 : RegIdx) (imm : Word)
  | sltiu (rd rs1 : RegIdx) (imm : Word)
  | xori (rd rs1 : RegIdx) (imm : Word)
  | ori (rd rs1 : RegIdx) (imm : Word)
  | andi (rd rs1 : RegIdx) (imm : Word)
  | slli (rd rs1 : RegIdx) (shamt : BitVec 5)
  | srli (rd rs1 : RegIdx) (shamt : BitVec 5)
  | srai (rd rs1 : RegIdx) (shamt : BitVec 5)
  -- OP, R layout (R112 to R121)
  | add (rd rs1 rs2 : RegIdx)
  | sub (rd rs1 rs2 : RegIdx)
  | sll (rd rs1 rs2 : RegIdx)
  | slt (rd rs1 rs2 : RegIdx)
  | sltu (rd rs1 rs2 : RegIdx)
  | xor (rd rs1 rs2 : RegIdx)
  | srl (rd rs1 rs2 : RegIdx)
  | sra (rd rs1 rs2 : RegIdx)
  | or (rd rs1 rs2 : RegIdx)
  | and (rd rs1 rs2 : RegIdx)
  -- SYSTEM (R190, R192, R171 to R176, R194)
  | ecall
  | mret
  | csrrw (rd rs1 : RegIdx) (csr : CsrAddr)
  | csrrs (rd rs1 : RegIdx) (csr : CsrAddr)
  | csrrc (rd rs1 : RegIdx) (csr : CsrAddr)
  | csrrwi (rd : RegIdx) (uimm : BitVec 5) (csr : CsrAddr)
  | csrrsi (rd : RegIdx) (uimm : BitVec 5) (csr : CsrAddr)
  | csrrci (rd : RegIdx) (uimm : BitVec 5) (csr : CsrAddr)
  | ebreak
  -- MISC-MEM (R196, R197): the fields are ignored by the meaning and kept so that no bit of the word is lost
  | fence (fm pred succ : BitVec 4) (rs1 rd : RegIdx)
  | fenceI (rd rs1 : RegIdx) (imm : Word)
  -- M group, R layout (R211 to R218)
  | mul (rd rs1 rs2 : RegIdx)
  | mulh (rd rs1 rs2 : RegIdx)
  | mulhsu (rd rs1 rs2 : RegIdx)
  | mulhu (rd rs1 rs2 : RegIdx)
  | div (rd rs1 rs2 : RegIdx)
  | divu (rd rs1 rs2 : RegIdx)
  | rem (rd rs1 rs2 : RegIdx)
  | remu (rd rs1 rs2 : RegIdx)
deriving DecidableEq, Repr

/-- The group of the table an instruction's row belongs to (R70; the column "group" of opcode_table.json). -/
def Instr.group : Instr → Group
  | .csrrc _ _ _ | .csrrwi _ _ _ | .csrrsi _ _ _ | .csrrci _ _ _ => .csrFull
  | .ebreak => .ebreak
  | .fence _ _ _ _ _ | .fenceI _ _ _ => .fence
  | .mul _ _ _ | .mulh _ _ _ | .mulhsu _ _ _ | .mulhu _ _ _
  | .div _ _ _ | .divu _ _ _ | .rem _ _ _ | .remu _ _ _ => .mulDiv
  | .lui _ _ | .auipc _ _ | .jal _ _ | .jalr _ _ _
  | .beq _ _ _ | .bne _ _ _ | .blt _ _ _ | .bge _ _ _ | .bltu _ _ _ | .bgeu _ _ _
  | .lb _ _ _ | .lh _ _ _ | .lw _ _ _ | .lbu _ _ _ | .lhu _ _ _
  | .sb _ _ _ | .sh _ _ _ | .sw _ _ _
  | .addi _ _ _ | .slti _ _ _ | .sltiu _ _ _ | .xori _ _ _ | .ori _ _ _ | .andi _ _ _
  | .slli _ _ _ | .srli _ _ _ | .srai _ _ _
  | .add _ _ _ | .sub _ _ _ | .sll _ _ _ | .slt _ _ _ | .sltu _ _ _ | .xor _ _ _
  | .srl _ _ _ | .sra _ _ _ | .or _ _ _ | .and _ _ _
  | .ecall | .mret | .csrrw _ _ _ | .csrrs _ _ _ => .core

end Sys2Proof
end

