-- ==== Sys2Proof/WellFormed.lean ====
section
/-! DEFINITION. Which immediates an encoding admits (R69, 90_conflicts.md C4): I and S immediates in [-2048, 2047], B offsets
even in [-4096, 4094], J offsets even in [-2^20, 2^20 - 2], U values with bits 11..0 zero; every other field at any value. -/

namespace Sys2Proof

/-- An I or S immediate an encoding can hold: in [-2048, 2047] (R63, R64, R69). -/
def fitsImm12 (v : Word) : Bool := decide (-2048 ≤ v.toInt) && decide (v.toInt ≤ 2047)

/-- A B offset an encoding can hold: even, in [-4096, 4094] (R65, R69). -/
def fitsOffsetB (v : Word) : Bool :=
  decide (-4096 ≤ v.toInt) && decide (v.toInt ≤ 4094) && !v.getLsbD 0

/-- A J offset an encoding can hold: even, in [-2^20, 2^20 - 2] (R67, R69). -/
def fitsOffsetJ (v : Word) : Bool :=
  decide (-1048576 ≤ v.toInt) && decide (v.toInt ≤ 1048574) && !v.getLsbD 0

/-- A U value an encoding can hold: bits 11..0 zero (R66, R69). -/
def fitsImmU (v : Word) : Bool := v.extractLsb' 0 12 == 0#12

/-- Well-formedness of an instruction: its immediate is one the layout encodes (R69). -/
def Instr.wellFormed : Instr → Bool
  | .lui _ imm | .auipc _ imm => fitsImmU imm
  | .jal _ imm => fitsOffsetJ imm
  | .jalr _ _ imm => fitsImm12 imm
  | .beq _ _ imm | .bne _ _ imm | .blt _ _ imm | .bge _ _ imm | .bltu _ _ imm | .bgeu _ _ imm => fitsOffsetB imm
  | .lb _ _ imm | .lh _ _ imm | .lw _ _ imm | .lbu _ _ imm | .lhu _ _ imm => fitsImm12 imm
  | .sb _ _ imm | .sh _ _ imm | .sw _ _ imm => fitsImm12 imm
  | .addi _ _ imm | .slti _ _ imm | .sltiu _ _ imm | .xori _ _ imm | .ori _ _ imm | .andi _ _ imm => fitsImm12 imm
  | .fenceI _ _ imm => fitsImm12 imm
  | .slli _ _ _ | .srli _ _ _ | .srai _ _ _ => true
  | .add _ _ _ | .sub _ _ _ | .sll _ _ _ | .slt _ _ _ | .sltu _ _ _ | .xor _ _ _
  | .srl _ _ _ | .sra _ _ _ | .or _ _ _ | .and _ _ _ => true
  | .ecall | .mret | .ebreak => true
  | .csrrw _ _ _ | .csrrs _ _ _ | .csrrc _ _ _ | .csrrwi _ _ _ | .csrrsi _ _ _ | .csrrci _ _ _ => true
  | .fence _ _ _ _ _ => true
  | .mul _ _ _ | .mulh _ _ _ | .mulhsu _ _ _ | .mulhu _ _ _
  | .div _ _ _ | .divu _ _ _ | .rem _ _ _ | .remu _ _ _ => true

end Sys2Proof
end

