-- ==== Sys2Proof/Decode.lean ====
section
/-! DEFINITION. The instruction decoder (R60 to R80): the fields of a word, the immediates, the ordered pattern table of
opcode_table.json, the first-match scan, the decoder of bytes, and after it the encoder (R69). -/

namespace Sys2Proof

/-! ### Fields of the raw word (R14, R61, R68) -/

/-- `rd = inst[11:7]` (R14). -/
def rdOf (w : Word) : RegIdx := w.extractLsb' 7 5
/-- `rs1 = inst[19:15]` (R14). -/
def rs1Of (w : Word) : RegIdx := w.extractLsb' 15 5
/-- `rs2 = inst[24:20]` (R14). -/
def rs2Of (w : Word) : RegIdx := w.extractLsb' 20 5
/-- `shamt = inst[24:20]` (R14, R68). -/
def shamtOf (w : Word) : BitVec 5 := w.extractLsb' 20 5
/-- `uimm = inst[19:15]` (R14, R68); its zero extension is `uimmValue` of Machine/Operands.lean. -/
def uimmOf (w : Word) : BitVec 5 := w.extractLsb' 15 5
/-- `csr = inst[31:20]`, unsigned (R68). -/
def csrOf (w : Word) : CsrAddr := w.extractLsb' 20 12
/-- `fm = inst[31:28]` of the fence form (R61). -/
def fmOf (w : Word) : BitVec 4 := w.extractLsb' 28 4
/-- `pred = inst[27:24]` of the fence form (R61). -/
def predOf (w : Word) : BitVec 4 := w.extractLsb' 24 4
/-- `succ = inst[23:20]` of the fence form (R61). -/
def succOf (w : Word) : BitVec 4 := w.extractLsb' 20 4

/-! ### Immediates (R63 to R67) -/

/-- `imm_I = sext_12(inst[31:20])` (R63). -/
def immI (w : Word) : Word := (w.extractLsb' 20 12).signExtend 32

/-- `imm_S = sext_12(inst[31:25] ‖ inst[11:7])` (R64). -/
def immS (w : Word) : Word := (w.extractLsb' 25 7 ++ w.extractLsb' 7 5 : BitVec 12).signExtend 32

/-- `imm_B = sext_13(inst[31] ‖ inst[7] ‖ inst[30:25] ‖ inst[11:8] ‖ 0b0)` (R65). -/
def immB (w : Word) : Word :=
  (w.extractLsb' 31 1 ++ w.extractLsb' 7 1 ++ w.extractLsb' 25 6 ++ w.extractLsb' 8 4 ++ 0#1 : BitVec 13).signExtend 32

/-- `imm_U = inst[31:12] ‖ 0x000` (R66). -/
def immU (w : Word) : Word := w.extractLsb' 12 20 ++ 0#12

/-- `imm_J = sext_21(inst[31] ‖ inst[19:12] ‖ inst[20] ‖ inst[30:21] ‖ 0b0)` (R67). -/
def immJ (w : Word) : Word :=
  (w.extractLsb' 31 1 ++ w.extractLsb' 12 8 ++ w.extractLsb' 20 1 ++ w.extractLsb' 21 10 ++ 0#1 : BitVec 21).signExtend 32

/-! ### The pattern table (R70 to R72, R76) -/

/-- The six layouts (R61). -/
inductive Layout where
  | R | I | S | B | U | J
deriving DecidableEq, Repr

/-- An entry `(mnemonic, layout, match, mask, action)` of the pattern table, with its group (R70). The action is here the
instruction with the operands its layout extracts; what that instruction does is Machine/. -/
structure Row where
  mnemonic : String
  layout : Layout
  pattern : Word
  mask : Word
  group : Group
  build : Word → Instr

/-- An entry matches a word when `(inst & mask) == match` (R71). -/
def Row.accepts (r : Row) (w : Word) : Bool := (w &&& r.mask) == r.pattern

/-- U and J layouts and jalr (opcode_table.json rows 1 to 4; R76). -/
def tableJumps : List Row :=
  [ ⟨"lui", .U, 0x00000037#32, 0x0000007F#32, .core, fun w => .lui (rdOf w) (immU w)⟩,
    ⟨"auipc", .U, 0x00000017#32, 0x0000007F#32, .core, fun w => .auipc (rdOf w) (immU w)⟩,
    ⟨"jal", .J, 0x0000006F#32, 0x0000007F#32, .core, fun w => .jal (rdOf w) (immJ w)⟩,
    ⟨"jalr", .I, 0x00000067#32, 0x0000707F#32, .core, fun w => .jalr (rdOf w) (rs1Of w) (immI w)⟩ ]

/-- Branches (opcode_table.json rows 5 to 10; R76). -/
def tableBranches : List Row :=
  [ ⟨"beq", .B, 0x00000063#32, 0x0000707F#32, .core, fun w => .beq (rs1Of w) (rs2Of w) (immB w)⟩,
    ⟨"bne", .B, 0x00001063#32, 0x0000707F#32, .core, fun w => .bne (rs1Of w) (rs2Of w) (immB w)⟩,
    ⟨"blt", .B, 0x00004063#32, 0x0000707F#32, .core, fun w => .blt (rs1Of w) (rs2Of w) (immB w)⟩,
    ⟨"bge", .B, 0x00005063#32, 0x0000707F#32, .core, fun w => .bge (rs1Of w) (rs2Of w) (immB w)⟩,
    ⟨"bltu", .B, 0x00006063#32, 0x0000707F#32, .core, fun w => .bltu (rs1Of w) (rs2Of w) (immB w)⟩,
    ⟨"bgeu", .B, 0x00007063#32, 0x0000707F#32, .core, fun w => .bgeu (rs1Of w) (rs2Of w) (immB w)⟩ ]

/-- Loads and stores (opcode_table.json rows 11 to 18; R76). -/
def tableLoadStore : List Row :=
  [ ⟨"lb", .I, 0x00000003#32, 0x0000707F#32, .core, fun w => .lb (rdOf w) (rs1Of w) (immI w)⟩,
    ⟨"lh", .I, 0x00001003#32, 0x0000707F#32, .core, fun w => .lh (rdOf w) (rs1Of w) (immI w)⟩,
    ⟨"lw", .I, 0x00002003#32, 0x0000707F#32, .core, fun w => .lw (rdOf w) (rs1Of w) (immI w)⟩,
    ⟨"lbu", .I, 0x00004003#32, 0x0000707F#32, .core, fun w => .lbu (rdOf w) (rs1Of w) (immI w)⟩,
    ⟨"lhu", .I, 0x00005003#32, 0x0000707F#32, .core, fun w => .lhu (rdOf w) (rs1Of w) (immI w)⟩,
    ⟨"sb", .S, 0x00000023#32, 0x0000707F#32, .core, fun w => .sb (rs1Of w) (rs2Of w) (immS w)⟩,
    ⟨"sh", .S, 0x00001023#32, 0x0000707F#32, .core, fun w => .sh (rs1Of w) (rs2Of w) (immS w)⟩,
    ⟨"sw", .S, 0x00002023#32, 0x0000707F#32, .core, fun w => .sw (rs1Of w) (rs2Of w) (immS w)⟩ ]

/-- OP-IMM (opcode_table.json rows 19 to 27; R76). -/
def tableOpImm : List Row :=
  [ ⟨"addi", .I, 0x00000013#32, 0x0000707F#32, .core, fun w => .addi (rdOf w) (rs1Of w) (immI w)⟩,
    ⟨"slti", .I, 0x00002013#32, 0x0000707F#32, .core, fun w => .slti (rdOf w) (rs1Of w) (immI w)⟩,
    ⟨"sltiu", .I, 0x00003013#32, 0x0000707F#32, .core, fun w => .sltiu (rdOf w) (rs1Of w) (immI w)⟩,
    ⟨"xori", .I, 0x00004013#32, 0x0000707F#32, .core, fun w => .xori (rdOf w) (rs1Of w) (immI w)⟩,
    ⟨"ori", .I, 0x00006013#32, 0x0000707F#32, .core, fun w => .ori (rdOf w) (rs1Of w) (immI w)⟩,
    ⟨"andi", .I, 0x00007013#32, 0x0000707F#32, .core, fun w => .andi (rdOf w) (rs1Of w) (immI w)⟩,
    ⟨"slli", .I, 0x00001013#32, 0xFE00707F#32, .core, fun w => .slli (rdOf w) (rs1Of w) (shamtOf w)⟩,
    ⟨"srli", .I, 0x00005013#32, 0xFE00707F#32, .core, fun w => .srli (rdOf w) (rs1Of w) (shamtOf w)⟩,
    ⟨"srai", .I, 0x40005013#32, 0xFE00707F#32, .core, fun w => .srai (rdOf w) (rs1Of w) (shamtOf w)⟩ ]

/-- OP (opcode_table.json rows 28 to 37; R76). -/
def tableOp : List Row :=
  [ ⟨"add", .R, 0x00000033#32, 0xFE00707F#32, .core, fun w => .add (rdOf w) (rs1Of w) (rs2Of w)⟩,
    ⟨"sub", .R, 0x40000033#32, 0xFE00707F#32, .core, fun w => .sub (rdOf w) (rs1Of w) (rs2Of w)⟩,
    ⟨"sll", .R, 0x00001033#32, 0xFE00707F#32, .core, fun w => .sll (rdOf w) (rs1Of w) (rs2Of w)⟩,
    ⟨"slt", .R, 0x00002033#32, 0xFE00707F#32, .core, fun w => .slt (rdOf w) (rs1Of w) (rs2Of w)⟩,
    ⟨"sltu", .R, 0x00003033#32, 0xFE00707F#32, .core, fun w => .sltu (rdOf w) (rs1Of w) (rs2Of w)⟩,
    ⟨"xor", .R, 0x00004033#32, 0xFE00707F#32, .core, fun w => .xor (rdOf w) (rs1Of w) (rs2Of w)⟩,
    ⟨"srl", .R, 0x00005033#32, 0xFE00707F#32, .core, fun w => .srl (rdOf w) (rs1Of w) (rs2Of w)⟩,
    ⟨"sra", .R, 0x40005033#32, 0xFE00707F#32, .core, fun w => .sra (rdOf w) (rs1Of w) (rs2Of w)⟩,
    ⟨"or", .R, 0x00006033#32, 0xFE00707F#32, .core, fun w => .or (rdOf w) (rs1Of w) (rs2Of w)⟩,
    ⟨"and", .R, 0x00007033#32, 0xFE00707F#32, .core, fun w => .and (rdOf w) (rs1Of w) (rs2Of w)⟩ ]

/-- ecall, mret and the core CSR rows (opcode_table.json rows 38 to 41; R76). -/
def tableSystem : List Row :=
  [ ⟨"ecall", .I, 0x00000073#32, 0xFFFFFFFF#32, .core, fun _ => .ecall⟩,
    ⟨"mret", .I, 0x30200073#32, 0xFFFFFFFF#32, .core, fun _ => .mret⟩,
    ⟨"csrrw", .I, 0x00001073#32, 0x0000707F#32, .core, fun w => .csrrw (rdOf w) (rs1Of w) (csrOf w)⟩,
    ⟨"csrrs", .I, 0x00002073#32, 0x0000707F#32, .core, fun w => .csrrs (rdOf w) (rs1Of w) (csrOf w)⟩ ]

/-- EXT_CSR_FULL, EXT_EBREAK and EXT_FENCE (opcode_table.json rows 42 to 48; R76). -/
def tableOptional : List Row :=
  [ ⟨"csrrc", .I, 0x00003073#32, 0x0000707F#32, .csrFull, fun w => .csrrc (rdOf w) (rs1Of w) (csrOf w)⟩,
    ⟨"csrrwi", .I, 0x00005073#32, 0x0000707F#32, .csrFull, fun w => .csrrwi (rdOf w) (uimmOf w) (csrOf w)⟩,
    ⟨"csrrsi", .I, 0x00006073#32, 0x0000707F#32, .csrFull, fun w => .csrrsi (rdOf w) (uimmOf w) (csrOf w)⟩,
    ⟨"csrrci", .I, 0x00007073#32, 0x0000707F#32, .csrFull, fun w => .csrrci (rdOf w) (uimmOf w) (csrOf w)⟩,
    ⟨"ebreak", .I, 0x00100073#32, 0xFFFFFFFF#32, .ebreak, fun _ => .ebreak⟩,
    ⟨"fence", .I, 0x0000000F#32, 0x0000707F#32, .fence, fun w => .fence (fmOf w) (predOf w) (succOf w) (rs1Of w) (rdOf w)⟩,
    ⟨"fence.i", .I, 0x0000100F#32, 0x0000707F#32, .fence, fun w => .fenceI (rdOf w) (rs1Of w) (immI w)⟩ ]

/-- EXT_M (opcode_table.json rows 49 to 56; R76). -/
def tableMulDiv : List Row :=
  [ ⟨"mul", .R, 0x02000033#32, 0xFE00707F#32, .mulDiv, fun w => .mul (rdOf w) (rs1Of w) (rs2Of w)⟩,
    ⟨"mulh", .R, 0x02001033#32, 0xFE00707F#32, .mulDiv, fun w => .mulh (rdOf w) (rs1Of w) (rs2Of w)⟩,
    ⟨"mulhsu", .R, 0x02002033#32, 0xFE00707F#32, .mulDiv, fun w => .mulhsu (rdOf w) (rs1Of w) (rs2Of w)⟩,
    ⟨"mulhu", .R, 0x02003033#32, 0xFE00707F#32, .mulDiv, fun w => .mulhu (rdOf w) (rs1Of w) (rs2Of w)⟩,
    ⟨"div", .R, 0x02004033#32, 0xFE00707F#32, .mulDiv, fun w => .div (rdOf w) (rs1Of w) (rs2Of w)⟩,
    ⟨"divu", .R, 0x02005033#32, 0xFE00707F#32, .mulDiv, fun w => .divu (rdOf w) (rs1Of w) (rs2Of w)⟩,
    ⟨"rem", .R, 0x02006033#32, 0xFE00707F#32, .mulDiv, fun w => .rem (rdOf w) (rs1Of w) (rs2Of w)⟩,
    ⟨"remu", .R, 0x02007033#32, 0xFE00707F#32, .mulDiv, fun w => .remu (rdOf w) (rs1Of w) (rs2Of w)⟩ ]

/-- The pattern table: the 56 rows of opcode_table.json in its order, every optional group among them (R70). -/
def patternTable : List Row :=
  tableJumps ++ tableBranches ++ tableLoadStore ++ tableOpImm ++ tableOp ++ tableSystem ++ tableOptional ++ tableMulDiv

/-- The rows a core with these group parameters holds: a disabled group has no row (R8, R70). -/
def rowsOf (g : Groups) : List Row := patternTable.filter fun r => g.has r.group

/-- The decoder "scans a fixed ordered pattern table, and executes the first structurally matching entry" (R71); no row is
`none`, the DecodeError of R73. -/
def decodeWord (g : Groups) (w : Word) : Option Instr :=
  ((rowsOf g).find? fun r => r.accepts w).map fun r => r.build w

/-- Why bytes decode to no instruction. -/
inductive DecodeReject where
  /-- No row of the table accepts the word (R73). -/
  | noPatternMatches (w : Word)
  /-- Fewer than the 4 bytes every instruction has (R60). -/
  | fewerThanFourBytes
deriving DecidableEq, Repr

/-- The instruction word of 4 bytes, the first at the lowest address: bits 7..0 come from the first (R43, R45). -/
def wordOfBytes (b0 b1 b2 b3 : Byte) : Word := b3 ++ b2 ++ b1 ++ b0

/-- The decoder on bytes: total, one instruction of 4 bytes and the bytes after it, or a named rejection (R60, R74). -/
def decode (g : Groups) : List Byte → Except DecodeReject (Instr × List Byte)
  | b0 :: b1 :: b2 :: b3 :: rest =>
    match decodeWord g (wordOfBytes b0 b1 b2 b3) with
    | some i => .ok (i, rest)
    | none => .error (.noPatternMatches (wordOfBytes b0 b1 b2 b3))
  | _ => .error .fewerThanFourBytes

/-- The group of the row that accepts a word in the full table; a word of no row needs no group. -/
def groupOfWord (w : Word) : Group :=
  match patternTable.find? fun r => r.accepts w with
  | some r => r.group
  | none => .core

/-- The word numbered as opcode_table.json numbers it: the low `nbits` of `w`, the bits above zero. -/
def tableWord (nbits w : Nat) : Word := BitVec.ofNat 32 (w % 2 ^ nbits)

/-- Byte `k` of a word in the little-endian order of R43. -/
def byteOf (v : Word) (k : Nat) : Byte := v.extractLsb' (8 * k) 8

/-- The instruction this decoder, with every group of the table on, reads from a table word laid out as 4 little-endian
bytes (R43, R45, R70). -/
def decodeTableWord (nbits w : Nat) : Option Instr :=
  let v := tableWord nbits w
  match decode Groups.all [byteOf v 0, byteOf v 1, byteOf v 2, byteOf v 3] with
  | .ok (i, _) => some i
  | .error _ => none

/-! ### The encoder (R61, R69, R76) -/

/-- R layout: funct7 ‖ rs2 ‖ rs1 ‖ funct3 ‖ rd ‖ opcode (R61). -/
def encodeR (f7 : BitVec 7) (rs2 rs1 : RegIdx) (f3 : BitVec 3) (rd : RegIdx) (op : BitVec 7) : Word :=
  f7 ++ rs2 ++ rs1 ++ f3 ++ rd ++ op

/-- I layout: `inst[31:20] = v[11:0]` (R61, R69). -/
def encodeI (v : Word) (rs1 : RegIdx) (f3 : BitVec 3) (rd : RegIdx) (op : BitVec 7) : Word :=
  v.extractLsb' 0 12 ++ rs1 ++ f3 ++ rd ++ op

/-- S layout: `inst[31:25] = v[11:5]`, `inst[11:7] = v[4:0]` (R61, R69). -/
def encodeS (v : Word) (rs2 rs1 : RegIdx) (f3 : BitVec 3) (op : BitVec 7) : Word :=
  v.extractLsb' 5 7 ++ rs2 ++ rs1 ++ f3 ++ v.extractLsb' 0 5 ++ op

/-- B layout: `inst[31] = v[12]`, `inst[7] = v[11]`, `inst[30:25] = v[10:5]`, `inst[11:8] = v[4:1]` (R61, R69). -/
def encodeB (v : Word) (rs2 rs1 : RegIdx) (f3 : BitVec 3) (op : BitVec 7) : Word :=
  v.extractLsb' 12 1 ++ v.extractLsb' 5 6 ++ rs2 ++ rs1 ++ f3 ++ v.extractLsb' 1 4 ++ v.extractLsb' 11 1 ++ op

/-- U layout: `inst[31:12] = v[31:12]` (R61, R69). -/
def encodeU (v : Word) (rd : RegIdx) (op : BitVec 7) : Word := v.extractLsb' 12 20 ++ rd ++ op

/-- J layout: `inst[31] = v[20]`, `inst[19:12] = v[19:12]`, `inst[20] = v[11]`, `inst[30:21] = v[10:1]` (R61, R69). -/
def encodeJ (v : Word) (rd : RegIdx) (op : BitVec 7) : Word :=
  v.extractLsb' 20 1 ++ v.extractLsb' 1 10 ++ v.extractLsb' 11 1 ++ v.extractLsb' 12 8 ++ rd ++ op

/-- CSR form of the I layout: csr ‖ rs1 or uimm ‖ funct3 ‖ rd ‖ SYSTEM opcode (R61, R76). -/
def encodeCsr (csr : CsrAddr) (src : BitVec 5) (f3 : BitVec 3) (rd : RegIdx) : Word :=
  csr ++ src ++ f3 ++ rd ++ 0x73#7

/-- The word of an instruction, from the layouts of R61, the immediates of R69 and the opcode map of R76. -/
def encode : Instr → Word
  | .lui rd imm => encodeU imm rd 0x37#7
  | .auipc rd imm => encodeU imm rd 0x17#7
  | .jal rd imm => encodeJ imm rd 0x6F#7
  | .jalr rd rs1 imm => encodeI imm rs1 0b000#3 rd 0x67#7
  | .beq rs1 rs2 imm => encodeB imm rs2 rs1 0b000#3 0x63#7
  | .bne rs1 rs2 imm => encodeB imm rs2 rs1 0b001#3 0x63#7
  | .blt rs1 rs2 imm => encodeB imm rs2 rs1 0b100#3 0x63#7
  | .bge rs1 rs2 imm => encodeB imm rs2 rs1 0b101#3 0x63#7
  | .bltu rs1 rs2 imm => encodeB imm rs2 rs1 0b110#3 0x63#7
  | .bgeu rs1 rs2 imm => encodeB imm rs2 rs1 0b111#3 0x63#7
  | .lb rd rs1 imm => encodeI imm rs1 0b000#3 rd 0x03#7
  | .lh rd rs1 imm => encodeI imm rs1 0b001#3 rd 0x03#7
  | .lw rd rs1 imm => encodeI imm rs1 0b010#3 rd 0x03#7
  | .lbu rd rs1 imm => encodeI imm rs1 0b100#3 rd 0x03#7
  | .lhu rd rs1 imm => encodeI imm rs1 0b101#3 rd 0x03#7
  | .sb rs1 rs2 imm => encodeS imm rs2 rs1 0b000#3 0x23#7
  | .sh rs1 rs2 imm => encodeS imm rs2 rs1 0b001#3 0x23#7
  | .sw rs1 rs2 imm => encodeS imm rs2 rs1 0b010#3 0x23#7
  | .addi rd rs1 imm => encodeI imm rs1 0b000#3 rd 0x13#7
  | .slti rd rs1 imm => encodeI imm rs1 0b010#3 rd 0x13#7
  | .sltiu rd rs1 imm => encodeI imm rs1 0b011#3 rd 0x13#7
  | .xori rd rs1 imm => encodeI imm rs1 0b100#3 rd 0x13#7
  | .ori rd rs1 imm => encodeI imm rs1 0b110#3 rd 0x13#7
  | .andi rd rs1 imm => encodeI imm rs1 0b111#3 rd 0x13#7
  | .slli rd rs1 shamt => encodeR 0b0000000#7 shamt rs1 0b001#3 rd 0x13#7
  | .srli rd rs1 shamt => encodeR 0b0000000#7 shamt rs1 0b101#3 rd 0x13#7
  | .srai rd rs1 shamt => encodeR 0b0100000#7 shamt rs1 0b101#3 rd 0x13#7
  | .add rd rs1 rs2 => encodeR 0b0000000#7 rs2 rs1 0b000#3 rd 0x33#7
  | .sub rd rs1 rs2 => encodeR 0b0100000#7 rs2 rs1 0b000#3 rd 0x33#7
  | .sll rd rs1 rs2 => encodeR 0b0000000#7 rs2 rs1 0b001#3 rd 0x33#7
  | .slt rd rs1 rs2 => encodeR 0b0000000#7 rs2 rs1 0b010#3 rd 0x33#7
  | .sltu rd rs1 rs2 => encodeR 0b0000000#7 rs2 rs1 0b011#3 rd 0x33#7
  | .xor rd rs1 rs2 => encodeR 0b0000000#7 rs2 rs1 0b100#3 rd 0x33#7
  | .srl rd rs1 rs2 => encodeR 0b0000000#7 rs2 rs1 0b101#3 rd 0x33#7
  | .sra rd rs1 rs2 => encodeR 0b0100000#7 rs2 rs1 0b101#3 rd 0x33#7
  | .or rd rs1 rs2 => encodeR 0b0000000#7 rs2 rs1 0b110#3 rd 0x33#7
  | .and rd rs1 rs2 => encodeR 0b0000000#7 rs2 rs1 0b111#3 rd 0x33#7
  | .ecall => 0x00000073#32
  | .mret => 0x30200073#32
  | .csrrw rd rs1 csr => encodeCsr csr rs1 0b001#3 rd
  | .csrrs rd rs1 csr => encodeCsr csr rs1 0b010#3 rd
  | .csrrc rd rs1 csr => encodeCsr csr rs1 0b011#3 rd
  | .csrrwi rd uimm csr => encodeCsr csr uimm 0b101#3 rd
  | .csrrsi rd uimm csr => encodeCsr csr uimm 0b110#3 rd
  | .csrrci rd uimm csr => encodeCsr csr uimm 0b111#3 rd
  | .ebreak => 0x00100073#32
  | .fence fm pred succ rs1 rd => fm ++ pred ++ succ ++ rs1 ++ 0b000#3 ++ rd ++ 0x0F#7
  | .fenceI rd rs1 imm => encodeI imm rs1 0b001#3 rd 0x0F#7
  | .mul rd rs1 rs2 => encodeR 0b0000001#7 rs2 rs1 0b000#3 rd 0x33#7
  | .mulh rd rs1 rs2 => encodeR 0b0000001#7 rs2 rs1 0b001#3 rd 0x33#7
  | .mulhsu rd rs1 rs2 => encodeR 0b0000001#7 rs2 rs1 0b010#3 rd 0x33#7
  | .mulhu rd rs1 rs2 => encodeR 0b0000001#7 rs2 rs1 0b011#3 rd 0x33#7
  | .div rd rs1 rs2 => encodeR 0b0000001#7 rs2 rs1 0b100#3 rd 0x33#7
  | .divu rd rs1 rs2 => encodeR 0b0000001#7 rs2 rs1 0b101#3 rd 0x33#7
  | .rem rd rs1 rs2 => encodeR 0b0000001#7 rs2 rs1 0b110#3 rd 0x33#7
  | .remu rd rs1 rs2 => encodeR 0b0000001#7 rs2 rs1 0b111#3 rd 0x33#7

end Sys2Proof
end

