-- ==== Sys2Proof/Machine/ResetValues.lean ====
section
/-! DEFINITION. The values the model starts from: the default parameters of R7, and the launch values the spec leaves to the
loader (R39, R260), each named in the assumption log. -/

namespace Sys2Proof.Machine

/-- What a byte of memory that nothing has placed or written reads as. DESIGN CHOICE, unsafe (log entry 5): the launch image
`MEM_INIT` is the loader's (R39) and the spec gives no value for a byte outside it. -/
def unwrittenByte : Byte := 0#8

/-- The default parameters of R7 and D3 to D6, D16, D21, D22: every optional group off, `SEL_REG` = 17, `MachineEntry`,
every address plain (log entry 2). -/
def defaultParams : Params where
  groups := Groups.coreOnly
  selReg := 17#5
  trapDispatch := .machineEntry
  devices := []

/-- The launch of `State.reset`. DESIGN CHOICE, unsafe (log entries 3, 4, 5): R39 leaves `RESET_PC`, `GPR_INIT`, `CSR_INIT` and
`MEM_INIT` to the loader; the model takes pc 0, registers and CSRs 0, and an image that places nothing. -/
def resetLaunch : Launch where
  resetPc := 0#32
  gprInit := Vector.replicate 32 0#32
  mstatusInit := 0#32
  mtvecInit := 0#32
  mepcInit := 0#32
  mcauseInit := 0#32
  memInit := []
  params := defaultParams

end Sys2Proof.Machine
end

