-- ==== Sys2Proof/Machine/Memory.lean ====
section
/-! DEFINITION. Memory as a list of (address, byte) pairs in one canonical form (R40): addresses strictly rising and below
2^32, no entry equal to what an unlisted address reads as. One byte is read and written here; wider accesses are built from
these two in Machine/Ops.lean. -/

namespace Sys2Proof.Machine

/-- The byte at an address: its entry, else what an unlisted address reads as (R40, R53). -/
def Memory.read : List Host.Cell → Nat → Byte
  | [], _ => unwrittenByte
  | (k, v) :: m, a => if a = k then v else Memory.read m a

/-- Put an entry before a memory unless it says what an unlisted address reads as. -/
def Memory.cons (a : Nat) (v : Byte) (m : List Host.Cell) : List Host.Cell :=
  if v = unwrittenByte then m else (a, v) :: m

/-- Write one byte, keeping the canonical form: in order, and without an entry for the value an unlisted address reads as. -/
def Memory.write : List Host.Cell → Nat → Byte → List Host.Cell
  | [], a, v => Memory.cons a v []
  | (k, w) :: m, a, v =>
    if a < k then Memory.cons a v ((k, w) :: m)
    else if a = k then Memory.cons a v m
    else (k, w) :: Memory.write m a v

/-- The canonical form from an address on. -/
def Memory.wfFrom : Nat → List Host.Cell → Bool
  | _, [] => true
  | lo, (k, v) :: m => decide (lo ≤ k) && decide (k < 2 ^ 32) && !(v == unwrittenByte) && Memory.wfFrom (k + 1) m

/-- The canonical form of a memory: strictly rising addresses below 2^32, no entry equal to the unlisted value. -/
def Memory.wf (m : List Host.Cell) : Bool := Memory.wfFrom 0 m

/-- The memory a loader's image gives: its bytes placed in order into empty memory (R39 `MEM_INIT`). -/
def Memory.ofImage (image : List (Word × Byte)) : List Host.Cell :=
  image.foldl (fun m c => Memory.write m c.1.toNat c.2) []

end Sys2Proof.Machine
end

