-- ==== Sys2Proof/Machine/State.lean ====
section
/-! DEFINITION. The whole state of the core (R38), the two faults, the refusal, and the state after reset (R39, R260). -/

namespace Sys2Proof.Machine

/-- Why a run halts (R37). Each is final (R37, R237, R238, R265). -/
inductive HaltReason where
  /-- No row of the pattern table matched (R73, R237). -/
  | decodeError (pc inst : Word)
  /-- A CSR instruction named an unmapped address (R170, R238). -/
  | unsupportedCsr (pc inst : Word) (csr : CsrAddr)
  /-- `ebreak`, with EXT_EBREAK (R194). -/
  | completed (pc : Word)
deriving DecidableEq, Repr

/-- The run status (R37). -/
inductive Status where
  | running
  | halted (reason : HaltReason)
deriving DecidableEq, Repr

/-- The tagged result of a step (R235): `continue(pc)`, `trap(kind, pc)` or `halted(reason)`. -/
inductive StepResult where
  | continued (pc : Word)
  | trapped (kind epc : Word)
  | halted (reason : HaltReason)
deriving DecidableEq, Repr

/-- The state (R38). `x` holds all 32 registers, x0 among them (R20, R21). `result` and `params` are the model's own fields (log
entries 9 and 1): the tagged result of the last step (R235), `none` before the first, and the parameters of the step (R7), which no
step changes. -/
structure State where
  x : Vector Word 32
  pc : Word
  mstatus : Word
  mtvec : Word
  mepc : Word
  mcause : Word
  mem : List Host.Cell
  status : Status
  result : Option StepResult
  params : Params
deriving DecidableEq, Repr

/-- Why the core has no step. -/
inductive Fault where
  /-- Raised by `step` on a state that is not Running: "a step is taken only in Running; Halted is final" (R37). Safe: the core takes no
  step there. -/
  | notRunning
  /-- Raised by the fetch, the loads and the stores when a byte of the access lies outside `PLAIN` (R50, R239): the spec gives no step.
  `addr` is the address of the access. Safe: the model stops where the spec says nothing. -/
  | outsidePlain (addr : Word)
deriving DecidableEq, Repr

/-- Why the model gives an instruction no meaning. -/
inductive Refusal where
  /-- Raised by an arm of `exec` whose instruction has no meaning yet, with its mnemonic. Safe. No arm raises it. -/
  | notModelled (mnemonic : String)
deriving DecidableEq, Repr

/-- The state in which a run starts, for every choice of the loader (R39, R260): `pc = RESET_PC`, `x0 = 0`, `x1..x31 = GPR_INIT`, the
CSRs `CSR_INIT`, memory the image, status Running. -/
def State.launch (l : Launch) : State where
  x := l.gprInit.set 0 0#32
  pc := l.resetPc
  mstatus := l.mstatusInit
  mtvec := l.mtvecInit
  mepc := l.mepcInit
  mcause := l.mcauseInit
  mem := Memory.ofImage l.memInit
  status := .running
  result := none
  params := l.params

/-- The machine right after reset: the launch with the default parameters and the values log entries 3, 4 and 5 name (R39). -/
def State.reset : State := State.launch resetLaunch

end Sys2Proof.Machine
end

