-- ==== Sys2Proof/Machine/Ops.lean ====
section
/-! DEFINITION. The named operations over registers, memory, CSRs and the pc that the meanings share (R11 to R13, R75), taking the
`ecall` trap and returning from it (R232, R233, R192), and the halts (R237, R238, R194). -/

namespace Sys2Proof.Machine

/-- What a step answers (Host/Core.lean). -/
abbrev StepOutcome := Host.Outcome State Fault Refusal

/-! ### General registers (R11, R20, R21) -/

/-- `x[r]` (R11). x0 is 0 because every step ends by forcing it to 0 (R21). -/
def State.reg (s : State) (r : RegIdx) : Word := s.x[r.toNat]'(r.isLt)

/-- `x[r] <- v` (R11): the execute phase may write x0; the commit then forces it to 0 (R21, D10). -/
def State.setReg (s : State) (r : RegIdx) (v : Word) : State := { s with x := s.x.set r.toNat v (r.isLt) }

/-! ### CSRs (R30 to R35) -/

/-- The four CSR words (R30). -/
inductive Csr where
  | mstatus
  | mtvec
  | mepc
  | mcause
deriving DecidableEq, Repr

/-- The fixed table of CSR addresses; any other address is unmapped (R30, R170, R178). -/
def csrOfAddr (a : CsrAddr) : Option Csr :=
  if a = 0x300#12 then some .mstatus
  else if a = 0x305#12 then some .mtvec
  else if a = 0x341#12 then some .mepc
  else if a = 0x342#12 then some .mcause
  else none

/-- `csr[name]` (R11). -/
def State.csr (s : State) : Csr → Word
  | .mstatus => s.mstatus
  | .mtvec => s.mtvec
  | .mepc => s.mepc
  | .mcause => s.mcause

/-- `csr[name] <- v`: the whole 32-bit word, no masking (R11, R35). -/
def State.setCsr (s : State) (c : Csr) (v : Word) : State :=
  match c with
  | .mstatus => { s with mstatus := v }
  | .mtvec => { s with mtvec := v }
  | .mepc => { s with mepc := v }
  | .mcause => { s with mcause := v }

/-! ### Memory (R12, R40 to R50) -/

/-- The byte at an address (R40). -/
def State.byteAt (s : State) (a : Word) : Byte := Memory.read s.mem a.toNat

/-- Write the byte at an address. -/
def State.setByte (s : State) (a : Word) (v : Byte) : State := { s with mem := Memory.write s.mem a.toNat v }

/-- `MemRead(a, n)`: n bytes, little-endian, addresses modulo 2^32, zero-extended to 32 bits (R12, R43, R47). -/
def State.memRead (s : State) (a : Word) : Width → Word
  | .byte => (s.byteAt a).setWidth 32
  | .half => (s.byteAt (a + 1) ++ s.byteAt a : BitVec 16).setWidth 32
  | .word => wordOfBytes (s.byteAt a) (s.byteAt (a + 1)) (s.byteAt (a + 2)) (s.byteAt (a + 3))

/-- `MemWrite(a, n, v)`: byte k of `v` to address `a + k` modulo 2^32, for k below n (R12, R43, R47, R59). -/
def State.memWrite (s : State) (a : Word) (n : Width) (v : Word) : State :=
  match n with
  | .byte => s.setByte a (byteOf v 0)
  | .half => (s.setByte a (byteOf v 0)).setByte (a + 1) (byteOf v 1)
  | .word =>
    (((s.setByte a (byteOf v 0)).setByte (a + 1) (byteOf v 1)).setByte (a + 2) (byteOf v 2)).setByte (a + 3) (byteOf v 3)

/-- Whether an address lies in a range that is not plain memory. -/
def regionContains (r : Region) (a : Word) : Bool := decide ((a - r.base).toNat < r.size)

/-- The predicate `PLAIN(a)` (R50): no listed region contains the address. -/
def State.plain (s : State) (a : Word) : Bool := !s.params.devices.any fun r => regionContains r a

/-- Whether all n bytes of an access are plain memory (R50). -/
def State.plainAccess (s : State) (a : Word) : Width → Bool
  | .byte => s.plain a
  | .half => s.plain a && s.plain (a + 1)
  | .word => s.plain a && s.plain (a + 1) && s.plain (a + 2) && s.plain (a + 3)

/-! ### The pc sequencer (R25, R27, R29, R75) -/

/-- `snpc = pc + 4` modulo 2^32 (R13, R27, R29). -/
def State.snpc (s : State) : Word := s.pc + 4#32

/-- The word fetched at the pc (R45, R60). -/
def State.fetchWord (s : State) : Word := s.memRead s.pc .word

/-- Steps 6 and 7 of R75: `x[0] <- 0; pc <- dnpc`, with the step's result (R235). -/
def State.commit (s : State) (r : StepResult) (dnpc : Word) : State :=
  { s with x := s.x.set 0 0#32, pc := dnpc, result := some r }

/-- Commit of a step that does not trap: `continue(dnpc)` (R75, R235). -/
def State.continueAt (s : State) (dnpc : Word) : State := s.commit (.continued dnpc) dnpc

/-- Write `x[rd]` and go on at `dnpc`. -/
def State.retireTo (s : State) (rd : RegIdx) (v dnpc : Word) : StepOutcome := .next ((s.setReg rd v).continueAt dnpc)

/-- Write `x[rd]` and go on at `snpc`: the end of every ALU instruction (R100). -/
def State.retire (s : State) (rd : RegIdx) (v : Word) : StepOutcome := s.retireTo rd v s.snpc

/-! ### Halts (R37, R237, R238, R194) -/

/-- `status <- Halted(reason)`: nothing else is written, and the result is `halted(reason)` (R235, R237). -/
def State.halt (s : State) (r : HaltReason) : State := { s with status := .halted r, result := some (.halted r) }

/-! ### Taking the trap and returning from it (R230 to R235, R192, R241) -/

/-- What `TRAP_DISPATCH` answers (R233): a resume PC and the new values of mepc and mcause. -/
structure TrapEffect where
  resume : Word
  mepc : Word
  mcause : Word
deriving DecidableEq, Repr

/-- The host's resume function at one event (R233). -/
def resumeOf (f : ResumeMap) (kind epc : Word) : Word :=
  match f.entries.find? fun e => e.kind == kind && e.epc == epc with
  | some e => e.resume
  | none => f.otherwise

/-- A `TRAP_DISPATCH` of which nothing is known: for each number, some function from (kind, epc, s) to a resume PC and new values of mepc
and mcause (R233). A free value: it has no body, so a claim that meets it holds for every such function (log entry 8). -/
opaque customDispatch (id : Nat) (kind epc : Word) (s : State) : Word × Word × Word

/-- `TRAP_DISPATCH(kind, epc, s)`: `MachineEntry` stores epc and kind and resumes at mtvec (R232); `HostResume(f)` writes no CSR, and any
other dispatch answers the three words (R233). -/
def State.dispatchTrap (s : State) (kind epc : Word) : TrapEffect :=
  match s.params.trapDispatch with
  | .machineEntry => ⟨s.mtvec, epc, kind⟩
  | .hostResume f => ⟨resumeOf f kind epc, s.mepc, s.mcause⟩
  | .custom id =>
    let r := customDispatch id kind epc s
    ⟨r.1, r.2.1, r.2.2⟩

/-- Taking the `ecall` event: step 5 of R75 with the faulting PC `s.pc` (R231), then the commit; the result is `trap(kind, pc)` (R235). -/
def State.takeTrap (s : State) (kind : Word) : State :=
  let e := s.dispatchTrap kind s.pc
  State.commit { s with mepc := e.mepc, mcause := e.mcause } (.trapped kind s.pc) e.resume

/-- Return from a trap: only the pc, from mepc, the whole value (R192, R241). -/
def State.returnFromTrap (s : State) : State := s.continueAt s.mepc

end Sys2Proof.Machine
end

