-- ==== Sys2Proof/Machine/Flags.lean ====
section
/-! DEFINITION. The core has no condition codes or status flags (R28): a comparison writes 1 or 0 to a general register, and a branch
compares two registers directly. This file holds those comparisons. -/

namespace Sys2Proof.Machine

/-- `bool32(c)`: 1 if the condition holds, else 0 (R10). -/
def bool32 (c : Bool) : Word := if c then 1#32 else 0#32

/-- `signed(a) < signed(b)` (R10, R104, R115, R155). -/
def ltSigned (a b : Word) : Bool := decide (a.toInt < b.toInt)

/-- `unsigned(a) < unsigned(b)` (R10, R105, R116, R157). -/
def ltUnsigned (a b : Word) : Bool := decide (a.toNat < b.toNat)

/-- `signed(a) ≥ signed(b)` (R156). -/
def geSigned (a b : Word) : Bool := !ltSigned a b

/-- `unsigned(a) ≥ unsigned(b)` (R158). -/
def geUnsigned (a b : Word) : Bool := !ltUnsigned a b

end Sys2Proof.Machine
end

