-- ==== Sys2Proof/Machine/Operands.lean ====
section
/-! DEFINITION. The operand forms (R100, R130, R150, R177): effective addresses, shift amounts, jump targets, the zero-extended CSR
immediate, and the shared shapes of loads, stores, branches and CSR accesses. -/

namespace Sys2Proof.Machine

/-- Effective address: `x[rs1] + imm` modulo 2^32 (R47, R130). -/
def State.effAddr (s : State) (rs1 : RegIdx) (imm : Word) : Word := s.reg rs1 + imm

/-- The shift amount of a register shift: only `src2[4:0]` counts (R114, R118, R119, R122). -/
def shiftAmount (v : Word) : Nat := (v.extractLsb' 0 5).toNat

/-- `uimm = zext_5(inst[19:15])` (R68, R174). -/
def uimmValue (u : BitVec 5) : Word := u.setWidth 32

/-- `sext_8` of the low byte of a read (R10, R131). -/
def sextByte (v : Word) : Word := (v.extractLsb' 0 8).signExtend 32

/-- `sext_16` of the low half of a read (R10, R132). -/
def sextHalf (v : Word) : Word := (v.extractLsb' 0 16).signExtend 32

/-- `zext_8` of the low byte of a read (R10, R134). -/
def zextByte (v : Word) : Word := (v.extractLsb' 0 8).setWidth 32

/-- `zext_16` of the low half of a read (R10, R135). -/
def zextHalf (v : Word) : Word := (v.extractLsb' 0 16).setWidth 32

/-- The target of `jal` and of a branch: `pc + imm` modulo 2^32 (R27, R150). -/
def State.pcTarget (s : State) (imm : Word) : Word := s.pc + imm

/-- The target of `jalr`: `(src1 + imm_I) & ~1` (R152, D12). -/
def State.jalrTarget (s : State) (rs1 : RegIdx) (imm : Word) : Word := (s.reg rs1 + imm) &&& ~~~1#32

/-- A load: read n bytes at the effective address, extend, write `x[rd]` (R130, R139). An access outside `PLAIN` has no step (R50). -/
def State.load (s : State) (rd rs1 : RegIdx) (imm : Word) (n : Width) (extend : Word → Word) : StepOutcome :=
  if s.plainAccess (s.effAddr rs1 imm) n then s.retire rd (extend (s.memRead (s.effAddr rs1 imm) n))
  else .fault (.outsidePlain (s.effAddr rs1 imm))

/-- A store: write the low n bytes of `x[rs2]` at the effective address (R130). An access outside `PLAIN` has no step (R50). -/
def State.store (s : State) (rs1 rs2 : RegIdx) (imm : Word) (n : Width) : StepOutcome :=
  if s.plainAccess (s.effAddr rs1 imm) n then
    .next ((s.memWrite (s.effAddr rs1 imm) n (s.reg rs2)).continueAt s.snpc)
  else .fault (.outsidePlain (s.effAddr rs1 imm))

/-- A branch: `dnpc <- pc + imm_B` if the condition on the operands holds, else `snpc` (R150). -/
def State.branch (s : State) (rs1 rs2 : RegIdx) (imm : Word) (cond : Word → Word → Bool) : StepOutcome :=
  .next (s.continueAt (if cond (s.reg rs1) (s.reg rs2) then s.pcTarget imm else s.snpc))

/-- A CSR instruction (R170, R177): resolve the address, else the fatal `UnsupportedCSR(pc, inst, csr)` before any write; then
`t <- csr; csr <- f t; x[rd] <- t`. `inst` is the instruction's word. -/
def State.csrUpdate (s : State) (inst : Word) (csr : CsrAddr) (rd : RegIdx) (f : Word → Word) : StepOutcome :=
  match csrOfAddr csr with
  | some c => (s.setCsr c (f (s.csr c))).retire rd (s.csr c)
  | none => .next (s.halt (.unsupportedCsr s.pc inst csr))

end Sys2Proof.Machine
end

