-- ==== Sys2Proof/Machine/Alu.lean ====
section
/-! DEFINITION. The upper-immediate and register-register instructions (40_integer_alu.md R100 to R102, R112 to R122). -/

namespace Sys2Proof.Machine

/-- `x[rd] <- imm_U` (R101). -/
def execLui (rd : RegIdx) (imm : Word) (s : State) : StepOutcome := s.retire rd imm

/-- `x[rd] <- pc + imm_U` (R102). -/
def execAuipc (rd : RegIdx) (imm : Word) (s : State) : StepOutcome := s.retire rd (s.pcTarget imm)

/-- `x[rd] <- src1 + src2` (R112). -/
def execAdd (rd rs1 rs2 : RegIdx) (s : State) : StepOutcome := s.retire rd (s.reg rs1 + s.reg rs2)

/-- `x[rd] <- src1 - src2` (R113). -/
def execSub (rd rs1 rs2 : RegIdx) (s : State) : StepOutcome := s.retire rd (s.reg rs1 - s.reg rs2)

/-- `x[rd] <- src1 << src2[4:0]` (R114). -/
def execSll (rd rs1 rs2 : RegIdx) (s : State) : StepOutcome := s.retire rd (s.reg rs1 <<< shiftAmount (s.reg rs2))

/-- `x[rd] <- bool32(signed(src1) < signed(src2))` (R115). -/
def execSlt (rd rs1 rs2 : RegIdx) (s : State) : StepOutcome := s.retire rd (bool32 (ltSigned (s.reg rs1) (s.reg rs2)))

/-- `x[rd] <- bool32(unsigned(src1) < unsigned(src2))` (R116). -/
def execSltu (rd rs1 rs2 : RegIdx) (s : State) : StepOutcome := s.retire rd (bool32 (ltUnsigned (s.reg rs1) (s.reg rs2)))

/-- `x[rd] <- src1 ^ src2` (R117). -/
def execXor (rd rs1 rs2 : RegIdx) (s : State) : StepOutcome := s.retire rd (s.reg rs1 ^^^ s.reg rs2)

/-- `x[rd] <- src1 >>u src2[4:0]` (R118). -/
def execSrl (rd rs1 rs2 : RegIdx) (s : State) : StepOutcome := s.retire rd (s.reg rs1 >>> shiftAmount (s.reg rs2))

/-- `x[rd] <- src1 >>s src2[4:0]` (R119). -/
def execSra (rd rs1 rs2 : RegIdx) (s : State) : StepOutcome :=
  s.retire rd ((s.reg rs1).sshiftRight (shiftAmount (s.reg rs2)))

/-- `x[rd] <- src1 | src2` (R120). -/
def execOr (rd rs1 rs2 : RegIdx) (s : State) : StepOutcome := s.retire rd (s.reg rs1 ||| s.reg rs2)

/-- `x[rd] <- src1 & src2` (R121). -/
def execAnd (rd rs1 rs2 : RegIdx) (s : State) : StepOutcome := s.retire rd (s.reg rs1 &&& s.reg rs2)

end Sys2Proof.Machine
end

