-- ==== Sys2Proof/Machine/AluImm.lean ====
section
/-! DEFINITION. The register-immediate instructions (40_integer_alu.md R103 to R111). -/

namespace Sys2Proof.Machine

/-- `x[rd] <- src1 + imm_I` (R103). -/
def execAddi (rd rs1 : RegIdx) (imm : Word) (s : State) : StepOutcome := s.retire rd (s.reg rs1 + imm)

/-- `x[rd] <- bool32(signed(src1) < signed(imm_I))` (R104). -/
def execSlti (rd rs1 : RegIdx) (imm : Word) (s : State) : StepOutcome := s.retire rd (bool32 (ltSigned (s.reg rs1) imm))

/-- `x[rd] <- bool32(unsigned(src1) < unsigned(imm_I))`, the immediate sign-extended first (R105, R122). -/
def execSltiu (rd rs1 : RegIdx) (imm : Word) (s : State) : StepOutcome := s.retire rd (bool32 (ltUnsigned (s.reg rs1) imm))

/-- `x[rd] <- src1 ^ imm_I` (R106). -/
def execXori (rd rs1 : RegIdx) (imm : Word) (s : State) : StepOutcome := s.retire rd (s.reg rs1 ^^^ imm)

/-- `x[rd] <- src1 | imm_I` (R107). -/
def execOri (rd rs1 : RegIdx) (imm : Word) (s : State) : StepOutcome := s.retire rd (s.reg rs1 ||| imm)

/-- `x[rd] <- src1 & imm_I` (R108). -/
def execAndi (rd rs1 : RegIdx) (imm : Word) (s : State) : StepOutcome := s.retire rd (s.reg rs1 &&& imm)

/-- `x[rd] <- src1 << shamt` (R109). -/
def execSlli (rd rs1 : RegIdx) (shamt : BitVec 5) (s : State) : StepOutcome := s.retire rd (s.reg rs1 <<< shamt.toNat)

/-- `x[rd] <- src1 >>u shamt` (R110). -/
def execSrli (rd rs1 : RegIdx) (shamt : BitVec 5) (s : State) : StepOutcome := s.retire rd (s.reg rs1 >>> shamt.toNat)

/-- `x[rd] <- src1 >>s shamt` (R111). -/
def execSrai (rd rs1 : RegIdx) (shamt : BitVec 5) (s : State) : StepOutcome :=
  s.retire rd ((s.reg rs1).sshiftRight shamt.toNat)

end Sys2Proof.Machine
end

