-- ==== Sys2Proof/Machine/Control.lean ====
section
/-! DEFINITION. Jumps and branches (42_control_transfer.md R150 to R161). -/

namespace Sys2Proof.Machine

/-- `x[rd] <- snpc; dnpc <- pc + imm_J` (R151, 90_conflicts.md C2). -/
def execJal (rd : RegIdx) (imm : Word) (s : State) : StepOutcome := s.retireTo rd s.snpc (s.pcTarget imm)

/-- `t <- (src1 + imm_I) & ~1; x[rd] <- snpc; dnpc <- t` (R152). -/
def execJalr (rd rs1 : RegIdx) (imm : Word) (s : State) : StepOutcome := s.retireTo rd s.snpc (s.jalrTarget rs1 imm)

/-- Branch if `src1 = src2` (R153). -/
def execBeq (rs1 rs2 : RegIdx) (imm : Word) (s : State) : StepOutcome := s.branch rs1 rs2 imm fun a b => a == b

/-- Branch if `src1 ≠ src2` (R154). -/
def execBne (rs1 rs2 : RegIdx) (imm : Word) (s : State) : StepOutcome := s.branch rs1 rs2 imm fun a b => a != b

/-- Branch if `signed(src1) < signed(src2)` (R155). -/
def execBlt (rs1 rs2 : RegIdx) (imm : Word) (s : State) : StepOutcome := s.branch rs1 rs2 imm ltSigned

/-- Branch if `signed(src1) ≥ signed(src2)` (R156). -/
def execBge (rs1 rs2 : RegIdx) (imm : Word) (s : State) : StepOutcome := s.branch rs1 rs2 imm geSigned

/-- Branch if `unsigned(src1) < unsigned(src2)` (R157). -/
def execBltu (rs1 rs2 : RegIdx) (imm : Word) (s : State) : StepOutcome := s.branch rs1 rs2 imm ltUnsigned

/-- Branch if `unsigned(src1) ≥ unsigned(src2)` (R158). -/
def execBgeu (rs1 rs2 : RegIdx) (imm : Word) (s : State) : StepOutcome := s.branch rs1 rs2 imm geUnsigned

end Sys2Proof.Machine
end

