-- ==== Sys2Proof/Machine/CsrInstr.lean ====
section
/-! DEFINITION. CSR instructions (43_csr.md R170 to R178). The raw word an `UnsupportedCSR` records is the encoding of the instruction:
every bit of a CSR instruction's word is an operand or fixed (R61), so it is the word that was fetched (log entry 12). -/

namespace Sys2Proof.Machine

/-- `t <- csr; csr <- src1; x[rd] <- t` (R171). -/
def execCsrrw (rd rs1 : RegIdx) (csr : CsrAddr) (s : State) : StepOutcome :=
  s.csrUpdate (encode (.csrrw rd rs1 csr)) csr rd fun _ => s.reg rs1

/-- `t <- csr; csr <- t | src1; x[rd] <- t` (R172). -/
def execCsrrs (rd rs1 : RegIdx) (csr : CsrAddr) (s : State) : StepOutcome :=
  s.csrUpdate (encode (.csrrs rd rs1 csr)) csr rd fun t => t ||| s.reg rs1

/-- `t <- csr; csr <- t & ~src1; x[rd] <- t` (R173). -/
def execCsrrc (rd rs1 : RegIdx) (csr : CsrAddr) (s : State) : StepOutcome :=
  s.csrUpdate (encode (.csrrc rd rs1 csr)) csr rd fun t => t &&& ~~~(s.reg rs1)

/-- `t <- csr; csr <- uimm; x[rd] <- t` (R174). -/
def execCsrrwi (rd : RegIdx) (uimm : BitVec 5) (csr : CsrAddr) (s : State) : StepOutcome :=
  s.csrUpdate (encode (.csrrwi rd uimm csr)) csr rd fun _ => uimmValue uimm

/-- `t <- csr; csr <- t | uimm; x[rd] <- t` (R175). -/
def execCsrrsi (rd : RegIdx) (uimm : BitVec 5) (csr : CsrAddr) (s : State) : StepOutcome :=
  s.csrUpdate (encode (.csrrsi rd uimm csr)) csr rd fun t => t ||| uimmValue uimm

/-- `t <- csr; csr <- t & ~uimm; x[rd] <- t` (R176). -/
def execCsrrci (rd : RegIdx) (uimm : BitVec 5) (csr : CsrAddr) (s : State) : StepOutcome :=
  s.csrUpdate (encode (.csrrci rd uimm csr)) csr rd fun t => t &&& ~~~(uimmValue uimm)

end Sys2Proof.Machine
end

