-- ==== Sys2Proof/Machine/LoadStore.lean ====
section
/-! DEFINITION. Loads and stores (41_load_store.md R130 to R140). -/

namespace Sys2Proof.Machine

/-- `x[rd] <- sext_8(MemRead(ea, 1)[7:0])` (R131). -/
def execLb (rd rs1 : RegIdx) (imm : Word) (s : State) : StepOutcome := s.load rd rs1 imm .byte sextByte

/-- `x[rd] <- sext_16(MemRead(ea, 2)[15:0])` (R132). -/
def execLh (rd rs1 : RegIdx) (imm : Word) (s : State) : StepOutcome := s.load rd rs1 imm .half sextHalf

/-- `x[rd] <- MemRead(ea, 4)` (R133). -/
def execLw (rd rs1 : RegIdx) (imm : Word) (s : State) : StepOutcome := s.load rd rs1 imm .word id

/-- `x[rd] <- zext_8(MemRead(ea, 1)[7:0])` (R134). -/
def execLbu (rd rs1 : RegIdx) (imm : Word) (s : State) : StepOutcome := s.load rd rs1 imm .byte zextByte

/-- `x[rd] <- zext_16(MemRead(ea, 2)[15:0])` (R135). -/
def execLhu (rd rs1 : RegIdx) (imm : Word) (s : State) : StepOutcome := s.load rd rs1 imm .half zextHalf

/-- `MemWrite(ea, 1, src2)` (R136). -/
def execSb (rs1 rs2 : RegIdx) (imm : Word) (s : State) : StepOutcome := s.store rs1 rs2 imm .byte

/-- `MemWrite(ea, 2, src2)` (R137). -/
def execSh (rs1 rs2 : RegIdx) (imm : Word) (s : State) : StepOutcome := s.store rs1 rs2 imm .half

/-- `MemWrite(ea, 4, src2)` (R138). -/
def execSw (rs1 rs2 : RegIdx) (imm : Word) (s : State) : StepOutcome := s.store rs1 rs2 imm .word

end Sys2Proof.Machine
end

