-- ==== Sys2Proof/Machine/MulDiv.lean ====
section
/-! DEFINITION. The M group (45_muldiv.md R210 to R219). -/

namespace Sys2Proof.Machine

/-- Bits 63..32 of a 64-bit product (R210). -/
def highWord (p : BitVec 64) : Word := p.extractLsb' 32 32

/-- `(sext_64(a) * sext_64(b))[63:32]` (R212). -/
def mulHigh (a b : Word) : Word := highWord (a.signExtend 64 * b.signExtend 64)

/-- `(sext_64(a) * zext_64(b))[63:32]` (R213). -/
def mulHighSignedUnsigned (a b : Word) : Word := highWord (a.signExtend 64 * b.setWidth 64)

/-- `(zext_64(a) * zext_64(b))[63:32]` (R214). -/
def mulHighUnsigned (a b : Word) : Word := highWord (a.setWidth 64 * b.setWidth 64)

/-- Signed division rounding toward zero, with its two corner values (R215, R219). -/
def divSigned (a b : Word) : Word :=
  if b = 0#32 then 0xFFFFFFFF#32
  else if a = 0x80000000#32 ∧ b = 0xFFFFFFFF#32 then 0x80000000#32
  else BitVec.ofInt 32 (a.toInt.tdiv b.toInt)

/-- Unsigned division, all ones for a zero divisor (R216, R219). -/
def divUnsigned (a b : Word) : Word :=
  if b = 0#32 then 0xFFFFFFFF#32 else BitVec.ofNat 32 (a.toNat / b.toNat)

/-- Signed remainder with the sign of the dividend (R217, R219). -/
def remSigned (a b : Word) : Word :=
  if b = 0#32 then a
  else if a = 0x80000000#32 ∧ b = 0xFFFFFFFF#32 then 0#32
  else BitVec.ofInt 32 (a.toInt - a.toInt.tdiv b.toInt * b.toInt)

/-- Unsigned remainder, the dividend for a zero divisor (R218, R219). -/
def remUnsigned (a b : Word) : Word := if b = 0#32 then a else BitVec.ofNat 32 (a.toNat % b.toNat)

/-- `x[rd] <- (src1 * src2)[31:0]` (R211). -/
def execMul (rd rs1 rs2 : RegIdx) (s : State) : StepOutcome := s.retire rd (s.reg rs1 * s.reg rs2)

/-- High word, signed by signed (R212). -/
def execMulh (rd rs1 rs2 : RegIdx) (s : State) : StepOutcome := s.retire rd (mulHigh (s.reg rs1) (s.reg rs2))

/-- High word, signed by unsigned (R213). -/
def execMulhsu (rd rs1 rs2 : RegIdx) (s : State) : StepOutcome := s.retire rd (mulHighSignedUnsigned (s.reg rs1) (s.reg rs2))

/-- High word, unsigned by unsigned (R214). -/
def execMulhu (rd rs1 rs2 : RegIdx) (s : State) : StepOutcome := s.retire rd (mulHighUnsigned (s.reg rs1) (s.reg rs2))

/-- Signed quotient (R215). -/
def execDiv (rd rs1 rs2 : RegIdx) (s : State) : StepOutcome := s.retire rd (divSigned (s.reg rs1) (s.reg rs2))

/-- Unsigned quotient (R216). -/
def execDivu (rd rs1 rs2 : RegIdx) (s : State) : StepOutcome := s.retire rd (divUnsigned (s.reg rs1) (s.reg rs2))

/-- Signed remainder (R217). -/
def execRem (rd rs1 rs2 : RegIdx) (s : State) : StepOutcome := s.retire rd (remSigned (s.reg rs1) (s.reg rs2))

/-- Unsigned remainder (R218). -/
def execRemu (rd rs1 rs2 : RegIdx) (s : State) : StepOutcome := s.retire rd (remUnsigned (s.reg rs1) (s.reg rs2))

end Sys2Proof.Machine
end

