-- ==== Sys2Proof/Machine/System.lean ====
section
/-! DEFINITION. Environment call, trap return, breakpoint and fences (44_trap_system.md R190 to R197). -/

namespace Sys2Proof.Machine

/-- `kind <- x[SEL_REG]; raise Trap(kind)` (R190, R191). -/
def execEcall (s : State) : StepOutcome := .next (s.takeTrap (s.reg s.params.selReg))

/-- `dnpc <- csr[mepc]` (R192). -/
def execMret (s : State) : StepOutcome := .next s.returnFromTrap

/-- `status <- Halted(Completed(pc))`, nothing else written (R194). -/
def execEbreak (s : State) : StepOutcome := .next (s.halt (.completed s.pc))

/-- No operation; the fields are ignored and the pc goes to `snpc` (R196). -/
def execFence (_fm _pred _succ : BitVec 4) (_rs1 _rd : RegIdx) (s : State) : StepOutcome := .next (s.continueAt s.snpc)

/-- No operation; the fields are ignored and the pc goes to `snpc` (R197). -/
def execFenceI (_rd _rs1 : RegIdx) (_imm : Word) (s : State) : StepOutcome := .next (s.continueAt s.snpc)

end Sys2Proof.Machine
end

