-- ==== Sys2Proof/Machine/Fetch.lean ====
section
/-! DEFINITION. Steps 1 and 2 of R75 around `exec`: the checks before an instruction runs, in the order of R239, and the placing of a
word where the next fetch reads it. -/

namespace Sys2Proof.Machine

/-- Steps 2 to 7 of R75 on the fetched word: the first matching row's instruction, else the fatal `DecodeError(pc, inst)` (R73, R237). -/
def runWord (s : State) (w : Word) : StepOutcome :=
  match decodeWord s.params.groups w with
  | some i => exec i s
  | none => .next (s.halt (.decodeError s.pc w))

/-- A step of a running core: a fetch outside `PLAIN` has no step (R50, R239), else fetch and run (R75). -/
def runFetched (s : State) : StepOutcome :=
  if s.plainAccess s.pc .word then runWord s s.fetchWord else .fault (.outsidePlain s.pc)

/-- Place an instruction word at the pc and give the core the rows of its group (R8; log entry 10). -/
def placeWord (s : State) (w : Word) : State :=
  let t := s.memWrite s.pc .word w
  { t with params := { t.params with groups := t.params.groups.enable (groupOfWord w) } }

end Sys2Proof.Machine
end

