-- ==== Sys2Proof/Machine/Step.lean ====
section
/-! DEFINITION. One step of the core (R75), and the placing of an instruction where the next step fetches it. -/

namespace Sys2Proof.Machine

/-- One step: taken only in Running (R37), then R75. -/
def step (s : State) : Host.Outcome State Fault Refusal :=
  match s.status with
  | .running => runFetched s
  | .halted _ => .fault .notRunning

/-- The state with an instruction of the opcode table where `step` fetches next, and with the group of its row enabled, so that the next
step runs exactly it (log entry 10). -/
def State.withFetchWord (s : State) (nbits w : Nat) : State := placeWord s (tableWord nbits w)

end Sys2Proof.Machine
end

