-- ==== Sys2Proof/Machine/HostLayer.lean ====
section
/-! DEFINITION. What the host layer does with the core (R262 to R264, R272): it asks for bursts of steps and reads registers and memory
between steps. It has no move that writes core state; the launch is `State.launch`. -/

namespace Sys2Proof.Machine

/-- Whether a state is Running (R37). -/
def State.isRunning (s : State) : Bool := decide (s.status = .running)

/-- Whether the last step returned `trap(kind, pc)` (R235). -/
def State.trappedLast (s : State) : Bool :=
  match s.result with
  | some (.trapped _ _) => true
  | _ => false

/-- A burst `run(n, s)`: steps while Running, fewer than `n` taken, and the last step of the burst did not trap; the trap step counts
and has committed its resume PC (R262, D29). -/
def burst : Nat → State → StepOutcome
  | 0, s => .next s
  | n + 1, s =>
    if s.isRunning then
      match step s with
      | .next t => if t.trappedLast then .next t else burst n t
      | .fault f => .fault f
      | .refused r => .refused r
    else .next s

/-- The command `si [n]`: one burst of `n` steps, "default 1" (R263). -/
def stepInto (n : Option Nat) (s : State) : StepOutcome := burst (n.getD 1) s

/-- The command `c` for at most `fuel` steps: bursts one after another, through traps, until the run halts (R263). `none` when the fuel ends
before the halt: the command has not returned. -/
def continueRun : Nat → State → Option StepOutcome
  | 0, s => if s.isRunning then none else some (.next s)
  | n + 1, s =>
    if s.isRunning then
      match step s with
      | .next t => continueRun n t
      | .fault f => some (.fault f)
      | .refused r => some (.refused r)
    else some (.next s)

/-- What `info r` shows: the general registers, the pc and the CSRs (R23, R264). -/
structure RegisterView where
  x : Vector Word 32
  pc : Word
  mstatus : Word
  mtvec : Word
  mepc : Word
  mcause : Word
deriving DecidableEq, Repr

/-- The command `info r` (R264). -/
def infoRegisters (s : State) : RegisterView := ⟨s.x, s.pc, s.mstatus, s.mtvec, s.mepc, s.mcause⟩

/-- The command `x <n> <hexaddr>`: `n` bytes from an address (R58, R264). DESIGN CHOICE, unsafe (log entry 17): R264 gives the command an address
and a count and answers "the bytes", with no unit for the count; the model counts bytes, in rising order of address modulo 2^32. DESIGN CHOICE,
unsafe (log entry 16): at an address outside `PLAIN` it reads the byte memory holds there; R50 speaks of steps only, and no rule says what the
command shows of a device. -/
def examine (s : State) (a : Word) : Nat → List Byte
  | 0 => []
  | n + 1 => s.byteAt a :: examine s (a + 1) n

end Sys2Proof.Machine
end

