-- ==== Sys2Proof/Safety.lean ====
section
/-! DEFINITION. The terms in which the statements speak: the invariant of every run, what a step writes and what it leaves alone (its
frame), and the opcode map of R76 written by fields, beside which the mask and match table of Decode.lean is held. -/

namespace Sys2Proof.Machine

/-! ### The invariant and safe runs -/

/-- What holds in every state a run reaches: x0 is 0 (R21) and memory keeps its canonical form. -/
def CoreInv (s : State) : Prop := s.reg 0#5 = 0#32 ∧ Memory.wf s.mem = true

/-- A fatal end of a run (R265): `DecodeError` or `UnsupportedCSR`, not `Completed`. -/
def HaltReason.fatal : HaltReason → Bool
  | .decodeError _ _ | .unsupportedCsr _ _ _ => true
  | .completed _ => false

/-- A run has not ended fatally (R265). -/
def NotFatal (s : State) : Prop := ∀ r, s.status = .halted r → r.fatal = false

/-- Every one of `n` bytes from `a`, modulo 2^32, is plain memory (R50). -/
def PlainRange (s : State) (a : Word) (n : Nat) : Prop := ∀ k, k < n → s.plain (a + BitVec.ofNat 32 k) = true

/-- The core is Running, its fetch is of plain memory, and the four bytes at the pc decode to the instruction (R75 steps 1 and 2). -/
def Fetches (s : State) (i : Instr) : Prop :=
  s.status = .running ∧ PlainRange s s.pc 4 ∧
  decode s.params.groups [s.byteAt s.pc, s.byteAt (s.pc + 1), s.byteAt (s.pc + 2), s.byteAt (s.pc + 3)] = .ok (i, [])

/-! ### Frames -/

/-- The four CSR words are unchanged. -/
def SameCsrs (s t : State) : Prop := ∀ c, t.csr c = s.csr c

/-- Every byte of memory is unchanged. -/
def SameBytes (s t : State) : Prop := ∀ a, t.byteAt a = s.byteAt a

/-- The run status and the parameters are unchanged. -/
def SameControl (s t : State) : Prop := t.status = s.status ∧ t.params = s.params

/-- Every general register but `rd` is unchanged, and x0 is 0 after the step (R21, R22). -/
def SameRegsBut (rd : RegIdx) (s t : State) : Prop := t.reg 0#5 = 0#32 ∧ ∀ r, r ≠ 0#5 → r ≠ rd → t.reg r = s.reg r

/-- Every general register is unchanged, and x0 is 0 after the step (R21). -/
def SameRegs (s t : State) : Prop := t.reg 0#5 = 0#32 ∧ ∀ r, r ≠ 0#5 → t.reg r = s.reg r

/-- The step went on at `npc`, with the result `continue(npc)` (R235). -/
def GoesTo (npc : Word) (t : State) : Prop := t.pc = npc ∧ t.result = some (.continued npc)

/-- The step wrote `v` to `x[rd]` (nothing where `rd` is x0, R21), went on at `npc`, and changed nothing else. -/
def WritesReg (s t : State) (rd : RegIdx) (v npc : Word) : Prop :=
  t.reg rd = (if rd = 0#5 then 0#32 else v) ∧ SameRegsBut rd s t ∧ GoesTo npc t ∧
  SameCsrs s t ∧ SameBytes s t ∧ SameControl s t

/-- The step went on at `npc` and changed nothing else. -/
def OnlyGoesTo (s t : State) (npc : Word) : Prop :=
  SameRegs s t ∧ GoesTo npc t ∧ SameCsrs s t ∧ SameBytes s t ∧ SameControl s t

/-- The step stored the low `n` bytes of `v` at `a`, little-endian modulo 2^32, went on at `npc`, and changed nothing else (R43). -/
def StoresBytes (s t : State) (a : Word) (n : Nat) (v npc : Word) : Prop :=
  (∀ k, k < n → (t.byteAt (a + BitVec.ofNat 32 k)).toNat = v.toNat / 256 ^ k % 256) ∧
  (∀ b, (∀ k, k < n → b ≠ a + BitVec.ofNat 32 k) → t.byteAt b = s.byteAt b) ∧
  SameRegs s t ∧ GoesTo npc t ∧ SameCsrs s t ∧ SameControl s t

/-- The step wrote `new` to the CSR `c` and its old value to `x[rd]`, went on at `pc + 4`, and changed nothing else (R177). -/
def SwapsCsr (s t : State) (c : Csr) (rd : RegIdx) (new : Word) : Prop :=
  t.csr c = new ∧ (∀ d, d ≠ c → t.csr d = s.csr d) ∧
  t.reg rd = (if rd = 0#5 then 0#32 else s.csr c) ∧ SameRegsBut rd s t ∧
  GoesTo (s.pc + 4) t ∧ SameBytes s t ∧ SameControl s t

/-- The step halted with `r` and wrote no register, CSR, memory or pc (R237, R238, R194). -/
def OnlyHalts (s t : State) (r : HaltReason) : Prop :=
  t.status = .halted r ∧ t.result = some (.halted r) ∧
  (∀ q, t.reg q = s.reg q) ∧ t.pc = s.pc ∧ SameCsrs s t ∧ SameBytes s t ∧ t.params = s.params

end Sys2Proof.Machine

namespace Sys2Proof

open Machine

/-! ### Instructions by kind -/

/-- The destination register of an instruction (R22, R62). -/
def Instr.dest : Instr → Option RegIdx
  | .lui rd _ | .auipc rd _ | .jal rd _ | .jalr rd _ _ => some rd
  | .beq _ _ _ | .bne _ _ _ | .blt _ _ _ | .bge _ _ _ | .bltu _ _ _ | .bgeu _ _ _ => none
  | .lb rd _ _ | .lh rd _ _ | .lw rd _ _ | .lbu rd _ _ | .lhu rd _ _ => some rd
  | .sb _ _ _ | .sh _ _ _ | .sw _ _ _ => none
  | .addi rd _ _ | .slti rd _ _ | .sltiu rd _ _ | .xori rd _ _ | .ori rd _ _ | .andi rd _ _ => some rd
  | .slli rd _ _ | .srli rd _ _ | .srai rd _ _ => some rd
  | .add rd _ _ | .sub rd _ _ | .sll rd _ _ | .slt rd _ _ | .sltu rd _ _ | .xor rd _ _ => some rd
  | .srl rd _ _ | .sra rd _ _ | .or rd _ _ | .and rd _ _ => some rd
  | .ecall | .mret | .ebreak => none
  | .csrrw rd _ _ | .csrrs rd _ _ | .csrrc rd _ _ | .csrrwi rd _ _ | .csrrsi rd _ _ | .csrrci rd _ _ => some rd
  | .fence _ _ _ _ _ | .fenceI _ _ _ => none
  | .mul rd _ _ | .mulh rd _ _ | .mulhsu rd _ _ | .mulhu rd _ _ => some rd
  | .div rd _ _ | .divu rd _ _ | .rem rd _ _ | .remu rd _ _ => some rd

/-- The CSR address an instruction names: the CSR instructions of 43_csr.md, no other. -/
def Instr.csrAddr : Instr → Option CsrAddr
  | .csrrw _ _ csr | .csrrs _ _ csr | .csrrc _ _ csr | .csrrwi _ _ csr | .csrrsi _ _ csr | .csrrci _ _ csr => some csr
  | _ => none

/-- The width a store moves (R48): the stores of 41_load_store.md, no other. -/
def Instr.storeWidth : Instr → Option Width
  | .sb _ _ _ => some .byte
  | .sh _ _ _ => some .half
  | .sw _ _ _ => some .word
  | _ => none

/-- The data access of an instruction: base register, displacement and width of a load or a store (R48, R130), none for every other. -/
def Instr.dataAccess : Instr → Option (RegIdx × Word × Width)
  | .lb _ rs1 imm | .lbu _ rs1 imm | .sb rs1 _ imm => some (rs1, imm, .byte)
  | .lh _ rs1 imm | .lhu _ rs1 imm | .sh rs1 _ imm => some (rs1, imm, .half)
  | .lw _ rs1 imm | .sw rs1 _ imm => some (rs1, imm, .word)
  | _ => none

/-- The rows of OP and OP-IMM (R76), whose `rd = 0` forms are the hints of R78. -/
def Instr.isOpOrOpImm : Instr → Bool
  | .addi _ _ _ | .slti _ _ _ | .sltiu _ _ _ | .xori _ _ _ | .ori _ _ _ | .andi _ _ _ => true
  | .slli _ _ _ | .srli _ _ _ | .srai _ _ _ => true
  | .add _ _ _ | .sub _ _ _ | .sll _ _ _ | .slt _ _ _ | .sltu _ _ _ | .xor _ _ _ => true
  | .srl _ _ _ | .sra _ _ _ | .or _ _ _ | .and _ _ _ => true
  | .mul _ _ _ | .mulh _ _ _ | .mulhsu _ _ _ | .mulhu _ _ _ => true
  | .div _ _ _ | .divu _ _ _ | .rem _ _ _ | .remu _ _ _ => true
  | _ => false

/-! ### Encodings by fields (R61, R76) -/

/-- The word of the instruction has this major opcode and funct3 (R14, R61). -/
def CodedAs (i : Instr) (op f3 : Nat) : Prop :=
  ((encode i).extractLsb' 0 7).toNat = op ∧ ((encode i).extractLsb' 12 3).toNat = f3

/-- The word of the instruction has this major opcode, funct3 and funct7 (R14, R61). -/
def CodedAsR (i : Instr) (op f3 f7 : Nat) : Prop :=
  CodedAs i op f3 ∧ ((encode i).extractLsb' 25 7).toNat = f7

/-- Without its group the instruction is none: a running core that fetches its word halts with `DecodeError(pc, inst)`, and writes nothing (R8,
R73). -/
def DecodeErrorWithoutGroup (i : Instr) : Prop :=
  ∀ s : State, s.params.groups.has i.group = false → s.status = .running → PlainRange s s.pc 4 → s.fetchWord = encode i →
    ∃ t, step s = .next t ∧ OnlyHalts s t (.decodeError s.pc (encode i))

/-- The opcode map of R76: the row's name for the major opcode, funct3, funct7 and the whole word, given which groups are on; `none` for
every word R77 calls illegal. -/
def opcodeMap (g : Groups) (w : Word) : Option String :=
  let f3 := (w.extractLsb' 12 3).toNat
  let f7 := (w.extractLsb' 25 7).toNat
  match (w.extractLsb' 0 7).toNat with
  | 0x37 => some "lui"
  | 0x17 => some "auipc"
  | 0x6F => some "jal"
  | 0x67 => if f3 = 0 then some "jalr" else none
  | 0x63 =>
    match f3 with
    | 0 => some "beq" | 1 => some "bne" | 4 => some "blt" | 5 => some "bge" | 6 => some "bltu" | 7 => some "bgeu"
    | _ => none
  | 0x03 =>
    match f3 with
    | 0 => some "lb" | 1 => some "lh" | 2 => some "lw" | 4 => some "lbu" | 5 => some "lhu"
    | _ => none
  | 0x23 =>
    match f3 with
    | 0 => some "sb" | 1 => some "sh" | 2 => some "sw"
    | _ => none
  | 0x13 =>
    match f3 with
    | 0 => some "addi" | 2 => some "slti" | 3 => some "sltiu" | 4 => some "xori" | 6 => some "ori" | 7 => some "andi"
    | 1 => if f7 = 0 then some "slli" else none
    | 5 => if f7 = 0 then some "srli" else if f7 = 32 then some "srai" else none
    | _ => none
  | 0x33 =>
    match f7, f3 with
    | 0, 0 => some "add" | 0, 1 => some "sll" | 0, 2 => some "slt" | 0, 3 => some "sltu"
    | 0, 4 => some "xor" | 0, 5 => some "srl" | 0, 6 => some "or" | 0, 7 => some "and"
    | 32, 0 => some "sub" | 32, 5 => some "sra"
    | 1, 0 => if g.mulDiv then some "mul" else none
    | 1, 1 => if g.mulDiv then some "mulh" else none
    | 1, 2 => if g.mulDiv then some "mulhsu" else none
    | 1, 3 => if g.mulDiv then some "mulhu" else none
    | 1, 4 => if g.mulDiv then some "div" else none
    | 1, 5 => if g.mulDiv then some "divu" else none
    | 1, 6 => if g.mulDiv then some "rem" else none
    | 1, 7 => if g.mulDiv then some "remu" else none
    | _, _ => none
  | 0x73 =>
    match f3 with
    | 0 =>
      if w = 0x00000073#32 then some "ecall"
      else if w = 0x30200073#32 then some "mret"
      else if w = 0x00100073#32 then (if g.ebreak then some "ebreak" else none)
      else none
    | 1 => some "csrrw"
    | 2 => some "csrrs"
    | 3 => if g.csrFull then some "csrrc" else none
    | 5 => if g.csrFull then some "csrrwi" else none
    | 6 => if g.csrFull then some "csrrsi" else none
    | 7 => if g.csrFull then some "csrrci" else none
    | _ => none
  | 0x0F =>
    match f3 with
    | 0 => if g.fence then some "fence" else none
    | 1 => if g.fence then some "fence.i" else none
    | _ => none
  | _ => none

/-- The mnemonic of the row the decoder takes for a word (R70, R71). -/
def rowMnemonic (g : Groups) (w : Word) : Option String :=
  ((rowsOf g).find? fun r => r.accepts w).map fun r => r.mnemonic

end Sys2Proof
end

