-- ==== Sys2Proof/Certificates/Slice0/Obligations.lean ====
section
/-! DEFINITION. The statements, from the numbered rules of spec/: what decoding, each instruction, the trap and the halts do, what they
leave alone, and the invariants of every step. -/

open Sys2Proof Sys2Proof.Machine

/-! ### Encoding and decoding -/

/-- R69 (90_conflicts.md C4): every well-formed instruction whose group is present decodes back from its word, with every operand. -/
def Obligations.DecodeOfEncodeIsTheInstruction : Prop :=
  ∀ (g : Groups) (i : Instr), i.wellFormed = true → g.has i.group = true → decodeWord g (encode i) = some i

/-- The other direction: what the decoder reads is well-formed, of a group that is present, and encodes to the very word. -/
def Obligations.EncodeOfDecodeIsTheWord : Prop :=
  ∀ (g : Groups) (w : Word) (i : Instr), decodeWord g w = some i →
    i.wellFormed = true ∧ g.has i.group = true ∧ encode i = w

/-- R74: every word matches exactly one row, whose instruction it is, or no row, and then the step raises `DecodeError(pc, inst)`. -/
def Obligations.WordMatchesOneRowOrRaisesDecodeError : Prop :=
  ∀ (g : Groups) (w : Word),
    (∃ k : Fin (rowsOf g).length, (rowsOf g)[k].accepts w = true ∧
      (∀ j : Fin (rowsOf g).length, (rowsOf g)[j].accepts w = true → j = k) ∧
      decodeWord g w = some ((rowsOf g)[k].build w)) ∨
    ((∀ r ∈ rowsOf g, r.accepts w = false) ∧ decodeWord g w = none ∧
      ∀ s : State, s.status = .running → PlainRange s s.pc 4 → s.params.groups = g → s.fetchWord = w →
        ∃ t, step s = .next t ∧ OnlyHalts s t (.decodeError s.pc w))

/-- R76, R77: the mask and match table is the opcode map written by fields, for every setting of the groups and every word. -/
def Obligations.PatternTableIsTheOpcodeMap : Prop :=
  ∀ (g : Groups) (w : Word), rowMnemonic g w = opcodeMap g w ∧ (decodeWord g w = none ↔ opcodeMap g w = none)

/-- R63 to R67: every bit of every immediate, and the ranges; B and J offsets are even. -/
def Obligations.ImmediatesTakeTheirBitsFromTheWord : Prop :=
  ∀ (w : Word) (k : Nat), k < 32 →
    (immI w).getLsbD k = w.getLsbD (min (k + 20) 31) ∧
    (immS w).getLsbD k = (if k < 5 then w.getLsbD (k + 7) else w.getLsbD (min (k + 20) 31)) ∧
    (immB w).getLsbD k = (if k = 0 then false else if k < 5 then w.getLsbD (k + 7) else if k < 11 then w.getLsbD (k + 20)
      else if k = 11 then w.getLsbD 7 else w.getLsbD 31) ∧
    (immU w).getLsbD k = (if k < 12 then false else w.getLsbD k) ∧
    (immJ w).getLsbD k = (if k = 0 then false else if k < 11 then w.getLsbD (k + 20) else if k = 11 then w.getLsbD 20
      else if k < 20 then w.getLsbD k else w.getLsbD 31) ∧
    (-2048 ≤ (immI w).toInt ∧ (immI w).toInt ≤ 2047) ∧ (-2048 ≤ (immS w).toInt ∧ (immS w).toInt ≤ 2047) ∧
    (-4096 ≤ (immB w).toInt ∧ (immB w).toInt ≤ 4094 ∧ (immB w).toInt % 2 = 0) ∧
    (-1048576 ≤ (immJ w).toInt ∧ (immJ w).toInt ≤ 1048574 ∧ (immJ w).toInt % 2 = 0)

/-- Words of the spec, written out bit by bit from R61 and R69, decode to what they stand for; the tests hold one for every row. -/
def Obligations.WrittenOutWordsDecode : Prop :=
  decodeWord Groups.coreOnly 0b11111111110100101000001100010011#32 = some (.addi 6 5 (-3)) ∧
  decodeWord Groups.coreOnly 0b01000000011100110000001010110011#32 = some (.sub 5 6 7) ∧
  decodeWord Groups.coreOnly 0b11111110011100110010111110100011#32 = some (.sw 6 7 (-1)) ∧
  decodeWord Groups.coreOnly 0b11111110000000000000111011100011#32 = some (.beq 0 0 (-4)) ∧
  decodeWord Groups.coreOnly 0b11111111100111111111000001101111#32 = some (.jal 0 (-8)) ∧
  decodeWord Groups.coreOnly 0b00010010001101000101001010110111#32 = some (.lui 5 0x12345000) ∧
  decodeWord Groups.coreOnly 0b00110000010100110001001011110011#32 = some (.csrrw 5 6 0x305) ∧
  decodeWord Groups.coreOnly 0b00000000000100000000000001110011#32 = none ∧
  decodeWord Groups.all 0b00000000000100000000000001110011#32 = some .ebreak ∧
  decodeWord Groups.all 0b00000010011100110100001010110011#32 = some (.div 5 6 7)

/-- R8: the word of an instruction whose group is off matches no row, and a step that fetches it raises `DecodeError`. -/
def Obligations.DisabledGroupRaisesDecodeError : Prop :=
  ∀ i : Instr, (∀ g : Groups, g.has i.group = false → ∀ r ∈ rowsOf g, r.accepts (encode i) = false) ∧ DecodeErrorWithoutGroup i

/-! ### The step -/

/-- R75: a running core whose four bytes at the pc are plain and decode to `i` steps as `exec i`. -/
def Obligations.StepRunsTheDecodedInstruction : Prop :=
  ∀ (s : State) (i : Instr), Fetches s i → step s = exec i s

/-- R73, R237: a word that matches no row halts the core with `DecodeError(pc, inst)`, the word of the four bytes little-endian, and writes
nothing; the all-zero word is one. -/
def Obligations.UnmatchedWordHaltsAndWritesNothing : Prop :=
  (∀ g : Groups, decodeWord g 0x00000000#32 = none) ∧
  ∀ (s : State) (w : Word), s.status = .running → PlainRange s s.pc 4 →
    w.toNat = (s.byteAt s.pc).toNat + 256 * (s.byteAt (s.pc + 1)).toNat + 65536 * (s.byteAt (s.pc + 2)).toNat
      + 16777216 * (s.byteAt (s.pc + 3)).toNat →
    (∀ r ∈ rowsOf s.params.groups, w &&& r.mask ≠ r.pattern) →
    ∃ t, step s = .next t ∧ OnlyHalts s t (.decodeError s.pc w)

/-- R37: a step is taken only in Running; a halted core has no step, and a burst leaves it as it is. -/
def Obligations.HaltedIsFinal : Prop :=
  ∀ (s : State) (r : HaltReason), s.status = .halted r →
    step s = .fault .notRunning ∧ ∀ n, burst n s = .next s

/-- R50, R239: a fetch that touches an address outside `PLAIN` has no step, whatever the word; so has a load or a store. -/
def Obligations.AccessOutsidePlainHasNoStep : Prop :=
  (∀ s : State, s.status = .running → ¬ PlainRange s s.pc 4 → step s = .fault (.outsidePlain s.pc)) ∧
  ∀ (s : State) (rd rs1 rs2 : RegIdx) (imm : Word),
    (¬ PlainRange s (s.effAddr rs1 imm) 1 →
      exec (.lb rd rs1 imm) s = .fault (.outsidePlain (s.effAddr rs1 imm)) ∧
      exec (.lbu rd rs1 imm) s = .fault (.outsidePlain (s.effAddr rs1 imm)) ∧
      exec (.sb rs1 rs2 imm) s = .fault (.outsidePlain (s.effAddr rs1 imm))) ∧
    (¬ PlainRange s (s.effAddr rs1 imm) 2 →
      exec (.lh rd rs1 imm) s = .fault (.outsidePlain (s.effAddr rs1 imm)) ∧
      exec (.lhu rd rs1 imm) s = .fault (.outsidePlain (s.effAddr rs1 imm)) ∧
      exec (.sh rs1 rs2 imm) s = .fault (.outsidePlain (s.effAddr rs1 imm))) ∧
    (¬ PlainRange s (s.effAddr rs1 imm) 4 →
      exec (.lw rd rs1 imm) s = .fault (.outsidePlain (s.effAddr rs1 imm)) ∧
      exec (.sw rs1 rs2 imm) s = .fault (.outsidePlain (s.effAddr rs1 imm)))

/-- R52, R74: with every address plain (the default), every step of a running core goes on to a next state; no access faults. -/
def Obligations.RunningCoreAlwaysSteps : Prop :=
  ∀ s : State, s.status = .running → (∀ a, s.plain a = true) → ∃ t, step s = .next t

/-- The only stops of a step are those for which the spec has no step: a halted core (R37), a fetch outside `PLAIN`, and, once the fetch is plain
and decodes to a load or a store, an access of its width at its effective address outside `PLAIN` (R50, R239). -/
def Obligations.StepStopsOnlyWhereTheSpecHasNoStep : Prop :=
  (∀ (s : State) (r : Refusal), step s ≠ .refused r) ∧
  ∀ (s : State) (f : Fault), step s = .fault f →
    (∃ r, s.status = .halted r ∧ f = .notRunning) ∨
    (s.status = .running ∧ f = .outsidePlain s.pc ∧ ¬ PlainRange s s.pc 4) ∨
    (s.status = .running ∧ PlainRange s s.pc 4 ∧
      ∃ (i : Instr) (rs1 : RegIdx) (imm : Word) (n : Width), decodeWord s.params.groups s.fetchWord = some i ∧
        i.dataAccess = some (rs1, imm, n) ∧ f = .outsidePlain (s.effAddr rs1 imm) ∧
        ¬ PlainRange s (s.effAddr rs1 imm) n.bytes)

/-! ### Integer computation (40_integer_alu.md) -/

/-- R101, R102: `lui` writes `imm_U`, `auipc` the instruction's own address plus `imm_U` modulo 2^32. -/
def Obligations.UpperImmediateResults : Prop :=
  ∀ (s : State) (rd : RegIdx) (imm : Word),
    (∃ t, exec (.lui rd imm) s = .next t ∧ WritesReg s t rd imm (s.pc + 4)) ∧
    (∃ t, exec (.auipc rd imm) s = .next t ∧ WritesReg s t rd (BitVec.ofNat 32 (s.pc.toNat + imm.toNat)) (s.pc + 4)) ∧
    ((Instr.lui rd imm).wellFormed = true → imm.toNat % 4096 = 0) ∧
    ((encode (.lui rd imm)).extractLsb' 0 7 = 0x37#7 ∧ (encode (.auipc rd imm)).extractLsb' 0 7 = 0x17#7)

/-- R103, R112, R113: sums and differences of the two's-complement readings, wrapping modulo 2^32. -/
def Obligations.AddAndSubtractResults : Prop :=
  ∀ (s : State) (rd rs1 rs2 : RegIdx) (imm : Word),
    (∃ t, exec (.addi rd rs1 imm) s = .next t ∧
      WritesReg s t rd (BitVec.ofInt 32 ((s.reg rs1).toInt + imm.toInt)) (s.pc + 4)) ∧
    (∃ t, exec (.add rd rs1 rs2) s = .next t ∧
      WritesReg s t rd (BitVec.ofInt 32 ((s.reg rs1).toInt + (s.reg rs2).toInt)) (s.pc + 4)) ∧
    (∃ t, exec (.sub rd rs1 rs2) s = .next t ∧
      WritesReg s t rd (BitVec.ofInt 32 ((s.reg rs1).toInt - (s.reg rs2).toInt)) (s.pc + 4)) ∧
    CodedAs (.addi rd rs1 imm) 0x13 0 ∧ CodedAsR (.add rd rs1 rs2) 0x33 0 0 ∧ CodedAsR (.sub rd rs1 rs2) 0x33 0 32

/-- R106 to R108, R117, R120, R121: the bitwise operations, bit by bit. -/
def Obligations.BitwiseResults : Prop :=
  ∀ (s : State) (rd rs1 rs2 : RegIdx) (imm : Word),
    (∃ t v, exec (.xori rd rs1 imm) s = .next t ∧ WritesReg s t rd v (s.pc + 4) ∧
      ∀ k, k < 32 → v.getLsbD k = ((s.reg rs1).getLsbD k != imm.getLsbD k)) ∧
    (∃ t v, exec (.ori rd rs1 imm) s = .next t ∧ WritesReg s t rd v (s.pc + 4) ∧
      ∀ k, k < 32 → v.getLsbD k = ((s.reg rs1).getLsbD k || imm.getLsbD k)) ∧
    (∃ t v, exec (.andi rd rs1 imm) s = .next t ∧ WritesReg s t rd v (s.pc + 4) ∧
      ∀ k, k < 32 → v.getLsbD k = ((s.reg rs1).getLsbD k && imm.getLsbD k)) ∧
    (∃ t v, exec (.xor rd rs1 rs2) s = .next t ∧ WritesReg s t rd v (s.pc + 4) ∧
      ∀ k, k < 32 → v.getLsbD k = ((s.reg rs1).getLsbD k != (s.reg rs2).getLsbD k)) ∧
    (∃ t v, exec (.or rd rs1 rs2) s = .next t ∧ WritesReg s t rd v (s.pc + 4) ∧
      ∀ k, k < 32 → v.getLsbD k = ((s.reg rs1).getLsbD k || (s.reg rs2).getLsbD k)) ∧
    (∃ t v, exec (.and rd rs1 rs2) s = .next t ∧ WritesReg s t rd v (s.pc + 4) ∧
      ∀ k, k < 32 → v.getLsbD k = ((s.reg rs1).getLsbD k && (s.reg rs2).getLsbD k)) ∧
    CodedAs (.xori rd rs1 imm) 0x13 4 ∧ CodedAs (.ori rd rs1 imm) 0x13 6 ∧ CodedAs (.andi rd rs1 imm) 0x13 7 ∧
    CodedAsR (.xor rd rs1 rs2) 0x33 4 0 ∧ CodedAsR (.or rd rs1 rs2) 0x33 6 0 ∧ CodedAsR (.and rd rs1 rs2) 0x33 7 0

/-- R110, R111, R114, R118, R119 and R109: left shifts multiply by a power of two modulo 2^32, logical right shifts divide the unsigned
reading, arithmetic right shifts divide the signed reading rounding down; a register amount counts modulo 32. A `slli` word with another
funct7 matches no row. -/
def Obligations.ShiftResults : Prop :=
  (∀ (s : State) (rd rs1 rs2 : RegIdx) (shamt : BitVec 5),
    (∃ t, exec (.slli rd rs1 shamt) s = .next t ∧
      WritesReg s t rd (BitVec.ofNat 32 ((s.reg rs1).toNat * 2 ^ shamt.toNat)) (s.pc + 4)) ∧
    (∃ t, exec (.srli rd rs1 shamt) s = .next t ∧
      WritesReg s t rd (BitVec.ofNat 32 ((s.reg rs1).toNat / 2 ^ shamt.toNat)) (s.pc + 4)) ∧
    (∃ t, exec (.srai rd rs1 shamt) s = .next t ∧
      WritesReg s t rd (BitVec.ofInt 32 ((s.reg rs1).toInt / 2 ^ shamt.toNat)) (s.pc + 4)) ∧
    (∃ t, exec (.sll rd rs1 rs2) s = .next t ∧
      WritesReg s t rd (BitVec.ofNat 32 ((s.reg rs1).toNat * 2 ^ ((s.reg rs2).toNat % 32))) (s.pc + 4)) ∧
    (∃ t, exec (.srl rd rs1 rs2) s = .next t ∧
      WritesReg s t rd (BitVec.ofNat 32 ((s.reg rs1).toNat / 2 ^ ((s.reg rs2).toNat % 32))) (s.pc + 4)) ∧
    (∃ t, exec (.sra rd rs1 rs2) s = .next t ∧
      WritesReg s t rd (BitVec.ofInt 32 ((s.reg rs1).toInt / 2 ^ ((s.reg rs2).toNat % 32))) (s.pc + 4)) ∧
    CodedAsR (.slli rd rs1 shamt) 0x13 1 0 ∧ CodedAsR (.srli rd rs1 shamt) 0x13 5 0 ∧ CodedAsR (.srai rd rs1 shamt) 0x13 5 32 ∧
    CodedAsR (.sll rd rs1 rs2) 0x33 1 0 ∧ CodedAsR (.srl rd rs1 rs2) 0x33 5 0 ∧ CodedAsR (.sra rd rs1 rs2) 0x33 5 32) ∧
  ∀ (g : Groups) (w : Word), (w.extractLsb' 0 7).toNat = 0x13 → (w.extractLsb' 12 3).toNat = 1 →
    (w.extractLsb' 25 7).toNat ≠ 0 → decodeWord g w = none

/-- R104, R105, R115, R116: the comparisons write 1 or 0, signed by the two's-complement readings, unsigned by the unsigned ones. -/
def Obligations.CompareResults : Prop :=
  ∀ (s : State) (rd rs1 rs2 : RegIdx) (imm : Word),
    (∃ t, exec (.slti rd rs1 imm) s = .next t ∧
      WritesReg s t rd (if (s.reg rs1).toInt < imm.toInt then 1 else 0) (s.pc + 4)) ∧
    (∃ t, exec (.sltiu rd rs1 imm) s = .next t ∧
      WritesReg s t rd (if (s.reg rs1).toNat < imm.toNat then 1 else 0) (s.pc + 4)) ∧
    (∃ t, exec (.slt rd rs1 rs2) s = .next t ∧
      WritesReg s t rd (if (s.reg rs1).toInt < (s.reg rs2).toInt then 1 else 0) (s.pc + 4)) ∧
    (∃ t, exec (.sltu rd rs1 rs2) s = .next t ∧
      WritesReg s t rd (if (s.reg rs1).toNat < (s.reg rs2).toNat then 1 else 0) (s.pc + 4)) ∧
    CodedAs (.slti rd rs1 imm) 0x13 2 ∧ CodedAs (.sltiu rd rs1 imm) 0x13 3 ∧
    CodedAsR (.slt rd rs1 rs2) 0x33 2 0 ∧ CodedAsR (.sltu rd rs1 rs2) 0x33 3 0

/-- R78: an OP or OP-IMM row with `rd = 0` changes no state but the pc (in a state where x0 is 0, which every step keeps). -/
def Obligations.HintsChangeOnlyThePc : Prop :=
  ∀ (i : Instr) (s : State), i.isOpOrOpImm = true → i.dest = some 0#5 → s.reg 0#5 = 0#32 →
    exec i s = .next { s with pc := s.pc + 4, result := some (.continued (s.pc + 4)) }

/-! ### Loads and stores (41_load_store.md, 20_memory.md) -/

/-- R131 to R135: what each load writes, from the bytes at the effective address, at any alignment and wrapping modulo 2^32. -/
def Obligations.LoadResults : Prop :=
  ∀ (s : State) (rd rs1 : RegIdx) (imm ea : Word), ea = BitVec.ofNat 32 ((s.reg rs1).toNat + imm.toNat) →
    (PlainRange s ea 1 →
      (∃ t, exec (.lb rd rs1 imm) s = .next t ∧ WritesReg s t rd (BitVec.ofInt 32 (s.byteAt ea).toInt) (s.pc + 4)) ∧
      (∃ t, exec (.lbu rd rs1 imm) s = .next t ∧ WritesReg s t rd (BitVec.ofNat 32 (s.byteAt ea).toNat) (s.pc + 4))) ∧
    (PlainRange s ea 2 →
      (∃ t, exec (.lh rd rs1 imm) s = .next t ∧
        WritesReg s t rd (BitVec.ofInt 32 ((s.byteAt (ea + 1)).toInt * 256 + (s.byteAt ea).toNat)) (s.pc + 4)) ∧
      (∃ t, exec (.lhu rd rs1 imm) s = .next t ∧
        WritesReg s t rd (BitVec.ofNat 32 ((s.byteAt (ea + 1)).toNat * 256 + (s.byteAt ea).toNat)) (s.pc + 4))) ∧
    (PlainRange s ea 4 →
      ∃ t, exec (.lw rd rs1 imm) s = .next t ∧
        WritesReg s t rd (BitVec.ofNat 32 ((s.byteAt (ea + 3)).toNat * 16777216 + (s.byteAt (ea + 2)).toNat * 65536
          + (s.byteAt (ea + 1)).toNat * 256 + (s.byteAt ea).toNat)) (s.pc + 4)) ∧
    CodedAs (.lb rd rs1 imm) 0x03 0 ∧ CodedAs (.lh rd rs1 imm) 0x03 1 ∧ CodedAs (.lw rd rs1 imm) 0x03 2 ∧
    CodedAs (.lbu rd rs1 imm) 0x03 4 ∧ CodedAs (.lhu rd rs1 imm) 0x03 5

/-- R136 to R138: each store writes the low bytes of `x[rs2]`, little-endian, at the effective address modulo 2^32, and no other byte. -/
def Obligations.StoreResults : Prop :=
  ∀ (s : State) (rs1 rs2 : RegIdx) (imm : Word), Memory.wf s.mem = true →
    (PlainRange s (s.effAddr rs1 imm) 1 →
      ∃ t, exec (.sb rs1 rs2 imm) s = .next t ∧ StoresBytes s t (s.effAddr rs1 imm) 1 (s.reg rs2) (s.pc + 4)) ∧
    (PlainRange s (s.effAddr rs1 imm) 2 →
      ∃ t, exec (.sh rs1 rs2 imm) s = .next t ∧ StoresBytes s t (s.effAddr rs1 imm) 2 (s.reg rs2) (s.pc + 4)) ∧
    (PlainRange s (s.effAddr rs1 imm) 4 →
      ∃ t, exec (.sw rs1 rs2 imm) s = .next t ∧ StoresBytes s t (s.effAddr rs1 imm) 4 (s.reg rs2) (s.pc + 4)) ∧
    s.effAddr rs1 imm = BitVec.ofNat 32 ((s.reg rs1).toNat + imm.toNat) ∧
    CodedAs (.sb rs1 rs2 imm) 0x23 0 ∧ CodedAs (.sh rs1 rs2 imm) 0x23 1 ∧ CodedAs (.sw rs1 rs2 imm) 0x23 2

/-- R44: after a word store, narrower reads of the same bytes see them in little-endian order. -/
def Obligations.NarrowReadsSeeTheWordStored : Prop :=
  ∀ (s : State) (a v : Word), Memory.wf s.mem = true →
    ((s.memWrite a .word v).memRead a .byte).toNat = v.toNat % 256 ∧
    ((s.memWrite a .word v).memRead (a + 1) .byte).toNat = v.toNat / 256 % 256 ∧
    ((s.memWrite a .word v).memRead a .half).toNat = v.toNat % 65536 ∧
    ((s.memWrite a .word v).memRead (a + 2) .half).toNat = v.toNat / 65536 ∧
    (s.memWrite a .word v).memRead a .word = v

/-- R56, R140: a word stored over the next instruction is what the next step fetches and runs. -/
def Obligations.StoreToNextInstructionIsFetchedNext : Prop :=
  ∀ (s : State) (rs1 rs2 : RegIdx) (imm : Word) (i : Instr), Fetches s (.sw rs1 rs2 imm) → Memory.wf s.mem = true →
    s.effAddr rs1 imm = s.pc + 4 → PlainRange s (s.pc + 4) 4 → decodeWord s.params.groups (s.reg rs2) = some i →
    ∃ t, step s = .next t ∧ t.pc = s.pc + 4 ∧ t.fetchWord = s.reg rs2 ∧ step t = exec i t

/-! ### Control transfer (42_control_transfer.md) -/

/-- R151, R152, R161: `jal` goes to its own address plus the offset, `jalr` to `x[rs1] + imm` with bit 0 cleared; both link `pc + 4` modulo 2^32,
the target from the old `x[rs1]`. -/
def Obligations.JumpResults : Prop :=
  ∀ (s : State) (rd rs1 : RegIdx) (imm : Word),
    (∃ t, exec (.jal rd imm) s = .next t ∧
      WritesReg s t rd (BitVec.ofNat 32 (s.pc.toNat + 4)) (BitVec.ofInt 32 (s.pc.toNat + imm.toInt))) ∧
    (∃ t target, exec (.jalr rd rs1 imm) s = .next t ∧ WritesReg s t rd (BitVec.ofNat 32 (s.pc.toNat + 4)) target ∧
      target.getLsbD 0 = false ∧
      ∀ k, 1 ≤ k → k < 32 → target.getLsbD k = (BitVec.ofNat 32 ((s.reg rs1).toNat + imm.toNat)).getLsbD k) ∧
    (encode (.jal rd imm)).extractLsb' 0 7 = 0x6F#7 ∧ CodedAs (.jalr rd rs1 imm) 0x67 0

/-- R153 to R158: a branch goes to its own address plus the offset exactly when its condition holds, else to `pc + 4`, and writes nothing. -/
def Obligations.BranchResults : Prop :=
  ∀ (s : State) (rs1 rs2 : RegIdx) (imm : Word),
    (∃ t, exec (.beq rs1 rs2 imm) s = .next t ∧
      OnlyGoesTo s t (if s.reg rs1 = s.reg rs2 then s.pc + imm else s.pc + 4)) ∧
    (∃ t, exec (.bne rs1 rs2 imm) s = .next t ∧
      OnlyGoesTo s t (if s.reg rs1 ≠ s.reg rs2 then s.pc + imm else s.pc + 4)) ∧
    (∃ t, exec (.blt rs1 rs2 imm) s = .next t ∧
      OnlyGoesTo s t (if (s.reg rs1).toInt < (s.reg rs2).toInt then s.pc + imm else s.pc + 4)) ∧
    (∃ t, exec (.bge rs1 rs2 imm) s = .next t ∧
      OnlyGoesTo s t (if (s.reg rs1).toInt ≥ (s.reg rs2).toInt then s.pc + imm else s.pc + 4)) ∧
    (∃ t, exec (.bltu rs1 rs2 imm) s = .next t ∧
      OnlyGoesTo s t (if (s.reg rs1).toNat < (s.reg rs2).toNat then s.pc + imm else s.pc + 4)) ∧
    (∃ t, exec (.bgeu rs1 rs2 imm) s = .next t ∧
      OnlyGoesTo s t (if (s.reg rs1).toNat ≥ (s.reg rs2).toNat then s.pc + imm else s.pc + 4)) ∧
    CodedAs (.beq rs1 rs2 imm) 0x63 0 ∧ CodedAs (.bne rs1 rs2 imm) 0x63 1 ∧ CodedAs (.blt rs1 rs2 imm) 0x63 4 ∧
    CodedAs (.bge rs1 rs2 imm) 0x63 5 ∧ CodedAs (.bltu rs1 rs2 imm) 0x63 6 ∧ CodedAs (.bgeu rs1 rs2 imm) 0x63 7

/-- R159: from an even pc, a step reaches an odd pc only by an `ecall` (through its resume PC) or an `mret` (through mepc). -/
def Obligations.PcTurnsOddOnlyThroughTrapOrReturn : Prop :=
  ∀ s t : State, step s = .next t → s.pc.toNat % 2 = 0 → t.pc.toNat % 2 = 1 →
    decodeWord s.params.groups s.fetchWord = some .ecall ∨
    (decodeWord s.params.groups s.fetchWord = some .mret ∧ s.mepc.toNat % 2 = 1)

/-! ### CSR instructions (43_csr.md) -/

/-- R171, R172: on each of the four CSR addresses, `csrrw` replaces, `csrrs` sets bits, and the old value goes to `x[rd]`, the operand being
the old `x[rs1]`; on every other address they halt with `UnsupportedCSR` and write nothing. -/
def Obligations.CsrReadWriteAndSetResults : Prop :=
  ∀ (s : State) (rd rs1 : RegIdx) (a : CsrAddr),
    (∀ c : Csr,
      (a, c) ∈ [(0x300#12, Csr.mstatus), (0x305#12, Csr.mtvec), (0x341#12, Csr.mepc), (0x342#12, Csr.mcause)] →
      (∃ t, exec (.csrrw rd rs1 a) s = .next t ∧ SwapsCsr s t c rd (s.reg rs1)) ∧
      (∃ t new, exec (.csrrs rd rs1 a) s = .next t ∧ SwapsCsr s t c rd new ∧
        ∀ k, k < 32 → new.getLsbD k = ((s.csr c).getLsbD k || (s.reg rs1).getLsbD k))) ∧
    (a ∉ [0x300#12, 0x305#12, 0x341#12, 0x342#12] →
      (∃ t, exec (.csrrw rd rs1 a) s = .next t ∧ OnlyHalts s t (.unsupportedCsr s.pc (encode (.csrrw rd rs1 a)) a)) ∧
      (∃ t, exec (.csrrs rd rs1 a) s = .next t ∧ OnlyHalts s t (.unsupportedCsr s.pc (encode (.csrrs rd rs1 a)) a))) ∧
    CodedAs (.csrrw rd rs1 a) 0x73 1 ∧ CodedAs (.csrrs rd rs1 a) 0x73 2

/-- R173 to R176: the optional CSR instructions on each of the four CSR addresses, their halt on every other, and their `DecodeError` when
EXT_CSR_FULL is false. -/
def Obligations.CsrFullGroupResults : Prop :=
  ∀ (s : State) (rd rs1 : RegIdx) (u : BitVec 5) (a : CsrAddr),
    (∀ c : Csr,
      (a, c) ∈ [(0x300#12, Csr.mstatus), (0x305#12, Csr.mtvec), (0x341#12, Csr.mepc), (0x342#12, Csr.mcause)] →
      (∃ t new, exec (.csrrc rd rs1 a) s = .next t ∧ SwapsCsr s t c rd new ∧
        ∀ k, k < 32 → new.getLsbD k = ((s.csr c).getLsbD k && !(s.reg rs1).getLsbD k)) ∧
      (∃ t, exec (.csrrwi rd u a) s = .next t ∧ SwapsCsr s t c rd (BitVec.ofNat 32 u.toNat)) ∧
      (∃ t new, exec (.csrrsi rd u a) s = .next t ∧ SwapsCsr s t c rd new ∧
        ∀ k, k < 32 → new.getLsbD k = ((s.csr c).getLsbD k || u.getLsbD k)) ∧
      (∃ t new, exec (.csrrci rd u a) s = .next t ∧ SwapsCsr s t c rd new ∧
        ∀ k, k < 32 → new.getLsbD k = ((s.csr c).getLsbD k && !u.getLsbD k))) ∧
    (a ∉ [0x300#12, 0x305#12, 0x341#12, 0x342#12] →
      ∀ i ∈ [Instr.csrrc rd rs1 a, Instr.csrrwi rd u a, Instr.csrrsi rd u a, Instr.csrrci rd u a],
        ∃ t, exec i s = .next t ∧ OnlyHalts s t (.unsupportedCsr s.pc (encode i) a)) ∧
    CodedAs (.csrrc rd rs1 a) 0x73 3 ∧ CodedAs (.csrrwi rd u a) 0x73 5 ∧ CodedAs (.csrrsi rd u a) 0x73 6 ∧
    CodedAs (.csrrci rd u a) 0x73 7 ∧ DecodeErrorWithoutGroup (.csrrc rd rs1 a) ∧ DecodeErrorWithoutGroup (.csrrwi rd u a) ∧
    DecodeErrorWithoutGroup (.csrrsi rd u a) ∧ DecodeErrorWithoutGroup (.csrrci rd u a)

/-- R170, R238, R178: a step that fetches a CSR instruction whose address is none of the four halts with `UnsupportedCSR(pc, inst, csr)`, the
fetched word and its bits 31..20, whatever `rd` and the source are, and writes nothing. -/
def Obligations.UnmappedCsrHaltsAndWritesNothing : Prop :=
  ∀ (s : State) (i : Instr) (a : CsrAddr), Fetches s i → i.csrAddr = some a →
    a ≠ 0x300#12 → a ≠ 0x305#12 → a ≠ 0x341#12 → a ≠ 0x342#12 →
    a = s.fetchWord.extractLsb' 20 12 ∧
    ∃ t, step s = .next t ∧ OnlyHalts s t (.unsupportedCsr s.pc s.fetchWord a)

/-! ### Traps and system instructions (44_trap_system.md, 60_exceptions.md) -/

/-- R190, R233: in every state and under every `TRAP_DISPATCH`, `ecall` dispatches the event of the selector register and its own address, resumes
where the dispatch says, takes its mepc and mcause, returns `trap(kind, pc)`, and changes no other CSR, register or byte of memory. -/
def Obligations.EcallDispatchesTheTrap : Prop :=
  ∀ s : State, encode .ecall = 0x00000073#32 ∧
    ∃ t, exec .ecall s = .next t ∧ t.pc = (s.dispatchTrap (s.reg s.params.selReg) s.pc).resume ∧
      t.mepc = (s.dispatchTrap (s.reg s.params.selReg) s.pc).mepc ∧
      t.mcause = (s.dispatchTrap (s.reg s.params.selReg) s.pc).mcause ∧ t.mstatus = s.mstatus ∧ t.mtvec = s.mtvec ∧
      t.result = some (.trapped (s.reg s.params.selReg) s.pc) ∧ SameRegs s t ∧ SameBytes s t ∧ SameControl s t

/-- R190, R232: under `MachineEntry`, `ecall` stores its own address in mepc and the whole selector register in mcause, resumes at the whole mtvec,
returns `trap(kind, pc)`, and changes nothing else. -/
def Obligations.EcallTakesMachineEntry : Prop :=
  ∀ s : State, s.params.trapDispatch = .machineEntry →
    encode .ecall = 0x00000073#32 ∧
    ∃ t, exec .ecall s = .next t ∧ t.mepc = s.pc ∧ t.mcause = s.reg s.params.selReg ∧ t.pc = s.mtvec ∧
      t.mstatus = s.mstatus ∧ t.mtvec = s.mtvec ∧ t.result = some (.trapped (s.reg s.params.selReg) s.pc) ∧
      SameRegs s t ∧ SameBytes s t ∧ SameControl s t

/-- R233: under `HostResume(f)`, `ecall` resumes at `f(kind, epc)` and writes no CSR, register or memory. -/
def Obligations.EcallTakesHostResume : Prop :=
  ∀ (s : State) (f : ResumeMap), s.params.trapDispatch = .hostResume f →
    ∃ t, exec .ecall s = .next t ∧
      ((∃ e ∈ f.entries, e.kind = s.reg s.params.selReg ∧ e.epc = s.pc ∧ t.pc = e.resume) ∨
        (∀ e ∈ f.entries, ¬ (e.kind = s.reg s.params.selReg ∧ e.epc = s.pc)) ∧ t.pc = f.otherwise) ∧
      t.result = some (.trapped (s.reg s.params.selReg) s.pc) ∧ SameCsrs s t ∧ SameRegs s t ∧ SameBytes s t ∧ SameControl s t

/-- R192, R241: `mret` goes to the whole value of mepc and changes nothing else. -/
def Obligations.MretGoesToMepc : Prop :=
  ∀ s : State, encode .mret = 0x30200073#32 ∧ ∃ t, exec .mret s = .next t ∧ OnlyGoesTo s t s.mepc

/-- R193: after an `ecall` at address A under `MachineEntry`, the handler `csrrs t, mepc, x0; addi t, t, 4; csrrw x0, mepc, t; mret` resumes at
A + 4, with mepc A + 4 and every register but `t` as it was; and an `mret` alone goes back to A. -/
def Obligations.TrapHandlerResumesAfterTheEcall : Prop :=
  ∀ (s : State) (r : RegIdx), s.params.trapDispatch = .machineEntry → r ≠ 0#5 →
    ∃ s1, exec .ecall s = .next s1 ∧ (∃ b, exec .mret s1 = .next b ∧ b.pc = s.pc) ∧
    ∃ s2, exec (.csrrs r 0#5 0x341#12) s1 = .next s2 ∧ ∃ s3, exec (.addi r r 4#32) s2 = .next s3 ∧
    ∃ s4, exec (.csrrw 0#5 r 0x341#12) s3 = .next s4 ∧ ∃ s5, exec .mret s4 = .next s5 ∧
      s5.pc = s.pc + 4 ∧ s5.mepc = s.pc + 4 ∧ s5.mcause = s.reg s.params.selReg ∧ SameRegsBut r s s5 ∧ SameBytes s s5

/-- R194: `ebreak` halts with `Completed(pc)` and writes nothing; without EXT_EBREAK its word raises `DecodeError`. -/
def Obligations.EbreakCompletesTheRun : Prop :=
  encode .ebreak = 0x00100073#32 ∧ DecodeErrorWithoutGroup .ebreak ∧
  ∀ s : State, ∃ t, exec .ebreak s = .next t ∧ OnlyHalts s t (.completed s.pc)

/-- R196, R197: `fence` and `fence.i` go to `pc + 4` and change nothing else, whatever their fields; without EXT_FENCE their words
raise `DecodeError`. -/
def Obligations.FencesOnlyAdvanceThePc : Prop :=
  ∀ (s : State) (fm pred succ : BitVec 4) (rs1 rd : RegIdx) (imm : Word),
    (∃ t, exec (.fence fm pred succ rs1 rd) s = .next t ∧ OnlyGoesTo s t (s.pc + 4)) ∧
    (∃ t, exec (.fenceI rd rs1 imm) s = .next t ∧ OnlyGoesTo s t (s.pc + 4)) ∧
    CodedAs (.fence fm pred succ rs1 rd) 0x0F 0 ∧ CodedAs (.fenceI rd rs1 imm) 0x0F 1 ∧
    DecodeErrorWithoutGroup (.fence fm pred succ rs1 rd) ∧ DecodeErrorWithoutGroup (.fenceI rd rs1 imm)

/-! ### Multiply and divide (45_muldiv.md) -/

/-- R211 to R214: the low word of the product, and the high words of the exact integer products of the readings named. -/
def Obligations.MultiplyResults : Prop :=
  ∀ (s : State) (rd rs1 rs2 : RegIdx),
    (∃ t, exec (.mul rd rs1 rs2) s = .next t ∧
      WritesReg s t rd (BitVec.ofInt 32 ((s.reg rs1).toInt * (s.reg rs2).toInt)) (s.pc + 4)) ∧
    (∃ t, exec (.mulh rd rs1 rs2) s = .next t ∧
      WritesReg s t rd (BitVec.ofInt 32 ((s.reg rs1).toInt * (s.reg rs2).toInt / 4294967296)) (s.pc + 4)) ∧
    (∃ t, exec (.mulhsu rd rs1 rs2) s = .next t ∧
      WritesReg s t rd (BitVec.ofInt 32 ((s.reg rs1).toInt * (s.reg rs2).toNat / 4294967296)) (s.pc + 4)) ∧
    (∃ t, exec (.mulhu rd rs1 rs2) s = .next t ∧
      WritesReg s t rd (BitVec.ofNat 32 ((s.reg rs1).toNat * (s.reg rs2).toNat / 4294967296)) (s.pc + 4)) ∧
    CodedAsR (.mul rd rs1 rs2) 0x33 0 1 ∧ CodedAsR (.mulh rd rs1 rs2) 0x33 1 1 ∧
    CodedAsR (.mulhsu rd rs1 rs2) 0x33 2 1 ∧ CodedAsR (.mulhu rd rs1 rs2) 0x33 3 1

/-- R215, R217, R219: `div` and `rem` write the quotient rounded toward zero and the remainder with the dividend's sign, with the values of R219 for a
zero divisor and for -2^31 by -1. -/
def Obligations.SignedDivisionResults : Prop :=
  ∀ (s : State) (rd rs1 rs2 : RegIdx), ∃ q r : Word,
    (∃ t, exec (.div rd rs1 rs2) s = .next t ∧ WritesReg s t rd q (s.pc + 4)) ∧
    (∃ t, exec (.rem rd rs1 rs2) s = .next t ∧ WritesReg s t rd r (s.pc + 4)) ∧
    (s.reg rs2 = 0#32 → q = 0xFFFFFFFF#32 ∧ r = s.reg rs1) ∧
    (s.reg rs1 = 0x80000000#32 → s.reg rs2 = 0xFFFFFFFF#32 → q = 0x80000000#32 ∧ r = 0#32) ∧
    (s.reg rs2 ≠ 0#32 → ¬ (s.reg rs1 = 0x80000000#32 ∧ s.reg rs2 = 0xFFFFFFFF#32) →
      (s.reg rs1).toInt = q.toInt * (s.reg rs2).toInt + r.toInt ∧ r.toInt.natAbs < (s.reg rs2).toInt.natAbs ∧
      (0 ≤ (s.reg rs1).toInt → 0 ≤ r.toInt) ∧ ((s.reg rs1).toInt ≤ 0 → r.toInt ≤ 0)) ∧
    CodedAsR (.div rd rs1 rs2) 0x33 4 1 ∧ CodedAsR (.rem rd rs1 rs2) 0x33 6 1

/-- R216, R218, R219: `divu` and `remu` write the unsigned quotient and remainder, with the values of R219 for a zero divisor. -/
def Obligations.UnsignedDivisionResults : Prop :=
  ∀ (s : State) (rd rs1 rs2 : RegIdx), ∃ q r : Word,
    (∃ t, exec (.divu rd rs1 rs2) s = .next t ∧ WritesReg s t rd q (s.pc + 4)) ∧
    (∃ t, exec (.remu rd rs1 rs2) s = .next t ∧ WritesReg s t rd r (s.pc + 4)) ∧
    (s.reg rs2 = 0#32 → q = 0xFFFFFFFF#32 ∧ r = s.reg rs1) ∧
    (s.reg rs2 ≠ 0#32 → (s.reg rs1).toNat = q.toNat * (s.reg rs2).toNat + r.toNat ∧ r.toNat < (s.reg rs2).toNat) ∧
    CodedAsR (.divu rd rs1 rs2) 0x33 5 1 ∧ CodedAsR (.remu rd rs1 rs2) 0x33 7 1

/-! ### Reset and the launch (10_state.md R39, 70_reset_and_hazards.md R260) -/

/-- R260: for every choice of the loader the run starts with `pc = RESET_PC`, x0 = 0, the other registers `GPR_INIT`, the CSRs `CSR_INIT`, memory the
image (the last byte placed at an address), status Running. What an address the image does not place reads as is the model's choice (log entry 5). -/
def Obligations.LaunchStateIsTheLoaders : Prop :=
  ∀ l : Launch,
    (State.launch l).pc = l.resetPc ∧ (State.launch l).reg 0#5 = 0#32 ∧
    (∀ r : RegIdx, r ≠ 0#5 → (State.launch l).reg r = l.gprInit[r.toNat]'(r.isLt)) ∧
    (State.launch l).mstatus = l.mstatusInit ∧ (State.launch l).mtvec = l.mtvecInit ∧
    (State.launch l).mepc = l.mepcInit ∧ (State.launch l).mcause = l.mcauseInit ∧
    (State.launch l).status = .running ∧
    ∀ a, (State.launch l).byteAt a =
      ((l.memInit.reverse.find? fun c => c.1 == a).map fun c => c.2).getD unwrittenByte

/-- The reset state: the values R39 gives (x0 = 0, Running), the default parameters of R7, and the model's own choices where the loader decides
(log entries 3, 4, 5: pc 0, registers and CSRs 0, nothing in memory). -/
def Obligations.ResetStateValues : Prop :=
  State.reset.status = .running ∧ (∀ r, State.reset.reg r = 0#32) ∧ State.reset.pc = 0#32 ∧
  (∀ c, State.reset.csr c = 0#32) ∧ State.reset.mem = [] ∧
  State.reset.params.groups = ⟨false, false, false, false⟩ ∧ State.reset.params.selReg = 17#5 ∧
  State.reset.params.trapDispatch = .machineEntry ∧ ∀ a, State.reset.plain a = true

/-- Every launch, the reset among them, has the invariant: x0 is 0 and memory is in canonical form. -/
def Obligations.LaunchHasInvariant : Prop :=
  (∀ l : Launch, CoreInv (State.launch l)) ∧ CoreInv State.reset

/-! ### Rules about every step -/

/-- R21 and the canonical memory: every step from a state with x0 = 0 and canonical memory gives such a state. -/
def Obligations.StepKeepsInvariant : Prop :=
  ∀ s t : State, CoreInv s → step s = .next t → CoreInv t

/-- R21: after every instruction that does not end the run, x0 is 0, from any state at all. -/
def Obligations.ZeroRegisterAfterEveryInstruction : Prop :=
  ∀ (i : Instr) (s t : State), exec i s = .next t → t.status = s.status → s.status = .running → t.reg 0#5 = 0#32

/-- R38: the pattern table, `SEL_REG` and `TRAP_DISPATCH` are parameters; no step changes them. -/
def Obligations.StepKeepsParameters : Prop :=
  ∀ s t : State, step s = .next t → t.params = s.params

/-- R22: an instruction writes no general register but its destination (x0 aside, which is forced to 0). -/
def Obligations.OnlyTheDestinationRegisterChanges : Prop :=
  ∀ (i : Instr) (s t : State), exec i s = .next t → ∀ r, r ≠ 0#5 → i.dest ≠ some r → t.reg r = s.reg r

/-- R30 to R34: a CSR word changes only by a CSR instruction that names its address, or, mepc and mcause, by an `ecall` whose dispatch is
not `HostResume`. -/
def Obligations.CsrChangesOnlyByCsrInstructionOrTrap : Prop :=
  ∀ (i : Instr) (s t : State) (c : Csr), exec i s = .next t → t.csr c ≠ s.csr c →
    (∃ a, i.csrAddr = some a ∧
      (a, c) ∈ [(0x300#12, Csr.mstatus), (0x305#12, Csr.mtvec), (0x341#12, Csr.mepc), (0x342#12, Csr.mcause)]) ∨
    (i = .ecall ∧ (∀ f, s.params.trapDispatch ≠ .hostResume f) ∧ (c = .mepc ∨ c = .mcause))

/-- R130, R42: only a store writes memory. -/
def Obligations.OnlyStoresWriteMemory : Prop :=
  ∀ (i : Instr) (s t : State), exec i s = .next t → i.storeWidth = none → t.mem = s.mem

/-- R31: no bit of mstatus changes what a step does, unless it runs a CSR instruction that names mstatus or hands an `ecall` to a dispatch that is
neither `MachineEntry` nor `HostResume`. -/
def Obligations.MstatusBitsChangeNothing : Prop :=
  ∀ (s t : State) (m : Word), step s = .next t →
    (∀ i, decodeWord s.params.groups s.fetchWord = some i → i.csrAddr ≠ some 0x300#12) →
    (decodeWord s.params.groups s.fetchWord = some .ecall → ∀ n, s.params.trapDispatch ≠ .custom n) →
    step { s with mstatus := m } = .next { t with mstatus := m }

/-- R230, R237, R238: a step that ends the run does so for one of the three reasons, and a halting step writes no register, CSR, memory or pc. -/
def Obligations.HaltsHaveThreeCausesAndWriteNothing : Prop :=
  ∀ (s t : State) (r : HaltReason), step s = .next t → t.status = .halted r →
    OnlyHalts s t r ∧
    ((decodeWord s.params.groups s.fetchWord = none ∧ r = .decodeError s.pc s.fetchWord) ∨
     (∃ i a, decodeWord s.params.groups s.fetchWord = some i ∧ i.csrAddr = some a ∧ csrOfAddr a = none ∧
        r = .unsupportedCsr s.pc s.fetchWord a) ∨
     (decodeWord s.params.groups s.fetchWord = some .ebreak ∧ s.params.groups.ebreak = true ∧ r = .completed s.pc))

/-- R230, R235: the step's result is `trap(kind, pc)` exactly when the word is `ecall`'s, with the selector register's value and its own address;
`halted(reason)` exactly when it halted; else `continue` of the committed pc. -/
def Obligations.StepResultTellsWhatHappened : Prop :=
  ∀ s t : State, step s = .next t →
    (decodeWord s.params.groups s.fetchWord = some .ecall ∧ t.status = .running ∧
      t.result = some (.trapped (s.reg s.params.selReg) s.pc)) ∨
    (decodeWord s.params.groups s.fetchWord ≠ some .ecall ∧ ∃ r, t.status = .halted r ∧ t.result = some (.halted r)) ∨
    (decodeWord s.params.groups s.fetchWord ≠ some .ecall ∧ t.status = .running ∧ t.result = some (.continued t.pc))

/-- R262: a burst of at most `n` steps is the steps one after another from Running states, none but the last a trap step, and it ends after `n` steps,
at a halt, or with a trap step that has committed its resume PC. -/
def Obligations.BurstStopsAtCountHaltOrTrap : Prop :=
  ∀ (n : Nat) (s t : State), burst n s = .next t →
    ∃ (k : Nat) (run : Nat → State), k ≤ n ∧ run 0 = s ∧ run k = t ∧
      (∀ j, j < k → (run j).status = .running ∧ step (run j) = .next (run (j + 1))) ∧
      (∀ j, 0 < j → j < k → (run j).trappedLast = false) ∧
      (k = n ∨ t.status ≠ .running ∨ (0 < k ∧ t.trappedLast = true))

/-- R263: `c` returns only in a halted state that its steps reach, and it returns whenever the run halts. That the command has a bound `n` on its
steps, and answers nothing when the bound ends before the run does, is the model's choice (log entry 14). -/
def Obligations.ContinueRunsUntilTheHalt : Prop :=
  (∀ (n : Nat) (s t : State), continueRun n s = some (.next t) →
    (∃ r, t.status = .halted r) ∧ ∃ k, k ≤ n ∧ Host.Core.run Sys2Proof.core k s = .next t) ∧
  ∀ (n k : Nat) (s t : State) (r : HaltReason), k ≤ n → Host.Core.run Sys2Proof.core k s = .next t →
    t.status = .halted r → continueRun n s = some (.next t)

/-- R58, R264: the host's `x` reads the bytes from its address on, and `info r` every general register, the pc and the CSRs. That the count of `x`
counts bytes, in rising order of address modulo 2^32, is the model's choice (log entry 17), and so is that `x` reads memory outside `PLAIN`
(log entry 16). -/
def Obligations.HostReadsRegistersAndMemory : Prop :=
  ∀ (s : State) (a : Word) (n : Nat),
    (examine s a n).length = n ∧ (∀ k, k < n → (examine s a n)[k]? = some (s.byteAt (a + BitVec.ofNat 32 k))) ∧
    (∀ r : RegIdx, (infoRegisters s).x[r.toNat]'(r.isLt) = s.reg r) ∧ (infoRegisters s).pc = s.pc ∧
    (infoRegisters s).mstatus = s.csr .mstatus ∧ (infoRegisters s).mtvec = s.csr .mtvec ∧
    (infoRegisters s).mepc = s.csr .mepc ∧ (infoRegisters s).mcause = s.csr .mcause
end

