-- ==== Sys2Proof/Laws/Decode.lean ====
section
/-! SUPPORT. The laws of decoding and encoding: the bits of each layout, when a row accepts a word, that no word matches two rows (R72), and what
the first-match scan answers. -/

namespace Sys2Proof

/-! ### The bits of each layout (R61, R69) -/

theorem encodeR_getLsbD (f7 : BitVec 7) (rs2 rs1 : RegIdx) (f3 : BitVec 3) (rd : RegIdx) (op : BitVec 7) (i : Nat) :
    (encodeR f7 rs2 rs1 f3 rd op).getLsbD i =
      if i < 7 then op.getLsbD i else if i < 12 then rd.getLsbD (i - 7) else if i < 15 then f3.getLsbD (i - 12)
      else if i < 20 then rs1.getLsbD (i - 15) else if i < 25 then rs2.getLsbD (i - 20) else f7.getLsbD (i - 25) := by
  simp only [encodeR]
  repeat rw [BitVec.getLsbD_append]
  simp only [Nat.sub_sub]
  split_ifs <;> first | rfl | omega

theorem encodeI_getLsbD (v : Word) (rs1 : RegIdx) (f3 : BitVec 3) (rd : RegIdx) (op : BitVec 7) (i : Nat) :
    (encodeI v rs1 f3 rd op).getLsbD i =
      if i < 7 then op.getLsbD i else if i < 12 then rd.getLsbD (i - 7) else if i < 15 then f3.getLsbD (i - 12)
      else if i < 20 then rs1.getLsbD (i - 15) else (decide (i < 32) && v.getLsbD (i - 20)) := by
  simp only [encodeI]
  repeat rw [BitVec.getLsbD_append]
  simp only [Nat.sub_sub, BitVec.getLsbD_extractLsb', Nat.zero_add]
  split_ifs <;> first | rfl | omega | (congr 1; simp; omega)

theorem encodeS_getLsbD (v : Word) (rs2 rs1 : RegIdx) (f3 : BitVec 3) (op : BitVec 7) (i : Nat) :
    (encodeS v rs2 rs1 f3 op).getLsbD i =
      if i < 7 then op.getLsbD i else if i < 12 then v.getLsbD (i - 7) else if i < 15 then f3.getLsbD (i - 12)
      else if i < 20 then rs1.getLsbD (i - 15) else if i < 25 then rs2.getLsbD (i - 20)
      else (decide (i < 32) && v.getLsbD (i - 20)) := by
  simp only [encodeS]
  repeat rw [BitVec.getLsbD_append]
  simp only [Nat.sub_sub, BitVec.getLsbD_extractLsb', Nat.zero_add]
  split_ifs <;> first
    | rfl | omega
    | (rw [show decide (i - 7 < 5) = true by simp; omega, Bool.true_and])
    | (rw [show 5 + (i - 25) = i - 20 by omega]; congr 1; simp; omega)

theorem encodeB_getLsbD (v : Word) (rs2 rs1 : RegIdx) (f3 : BitVec 3) (op : BitVec 7) (i : Nat) :
    (encodeB v rs2 rs1 f3 op).getLsbD i =
      if i < 7 then op.getLsbD i else if i = 7 then v.getLsbD 11 else if i < 12 then v.getLsbD (i - 7)
      else if i < 15 then f3.getLsbD (i - 12) else if i < 20 then rs1.getLsbD (i - 15)
      else if i < 25 then rs2.getLsbD (i - 20) else if i < 31 then v.getLsbD (i - 20)
      else (decide (i = 31) && v.getLsbD 12) := by
  by_cases h : i < 32
  · simp only [encodeB]
    repeat rw [BitVec.getLsbD_append]
    simp only [Nat.sub_sub, BitVec.getLsbD_extractLsb']
    interval_cases i <;> simp
  · rw [BitVec.getLsbD_of_ge _ i (by omega)]
    simp [show ¬ i < 7 by omega, show ¬ i < 12 by omega, show ¬ i < 15 by omega, show ¬ i < 20 by omega, show ¬ i < 25 by omega, show ¬ i < 31 by omega, show i ≠ 7 by omega, show i ≠ 31 by omega]

theorem encodeU_getLsbD (v : Word) (rd : RegIdx) (op : BitVec 7) (i : Nat) :
    (encodeU v rd op).getLsbD i =
      if i < 7 then op.getLsbD i else if i < 12 then rd.getLsbD (i - 7) else v.getLsbD i := by
  simp only [encodeU]
  repeat rw [BitVec.getLsbD_append]
  simp only [Nat.sub_sub, BitVec.getLsbD_extractLsb']
  split_ifs with h1 h2 <;> first
    | rfl | omega
    | (rw [show 12 + (i - 12) = i by omega]
       by_cases h : i < 32
       · rw [show decide (i - 12 < 20) = true by simp; omega, Bool.true_and]
       · rw [BitVec.getLsbD_of_ge v i (by omega), Bool.and_false])

theorem encodeJ_getLsbD (v : Word) (rd : RegIdx) (op : BitVec 7) (i : Nat) :
    (encodeJ v rd op).getLsbD i =
      if i < 7 then op.getLsbD i else if i < 12 then rd.getLsbD (i - 7) else if i < 20 then v.getLsbD i
      else if i = 20 then v.getLsbD 11 else if i < 31 then v.getLsbD (i - 20)
      else (decide (i = 31) && v.getLsbD 20) := by
  by_cases h : i < 32
  · simp only [encodeJ]
    repeat rw [BitVec.getLsbD_append]
    simp only [Nat.sub_sub, BitVec.getLsbD_extractLsb']
    interval_cases i <;> simp
  · rw [BitVec.getLsbD_of_ge _ i (by omega)]
    simp [show ¬ i < 7 by omega, show ¬ i < 12 by omega, show ¬ i < 20 by omega, show ¬ i < 31 by omega, show i ≠ 20 by omega, show i ≠ 31 by omega]

theorem encodeCsr_getLsbD (csr : CsrAddr) (src : BitVec 5) (f3 : BitVec 3) (rd : RegIdx) (i : Nat) :
    (encodeCsr csr src f3 rd).getLsbD i =
      if i < 7 then (0x73#7).getLsbD i else if i < 12 then rd.getLsbD (i - 7) else if i < 15 then f3.getLsbD (i - 12)
      else if i < 20 then src.getLsbD (i - 15) else csr.getLsbD (i - 20) := by
  simp only [encodeCsr]
  repeat rw [BitVec.getLsbD_append]
  simp only [Nat.sub_sub]
  split_ifs <;> first | rfl | omega

theorem encode_fence_getLsbD (fm pred succ : BitVec 4) (rs1 rd : RegIdx) (i : Nat) :
    (encode (.fence fm pred succ rs1 rd)).getLsbD i =
      if i < 7 then (0x0F#7).getLsbD i else if i < 12 then rd.getLsbD (i - 7) else if i < 15 then false
      else if i < 20 then rs1.getLsbD (i - 15) else if i < 24 then succ.getLsbD (i - 20)
      else if i < 28 then pred.getLsbD (i - 24) else fm.getLsbD (i - 28) := by
  simp only [encode]
  repeat rw [BitVec.getLsbD_append]
  simp only [Nat.sub_sub]
  split_ifs <;> first | rfl | omega | simp

/-! ### The fields of each layout: what is encoded is extracted (R61, R69) -/

variable (f7 : BitVec 7) (rs2 rs1 rd : RegIdx) (f3 : BitVec 3) (op : BitVec 7) (v : Word) (csr : CsrAddr)

theorem encodeR_fields :
    (encodeR f7 rs2 rs1 f3 rd op).extractLsb' 0 7 = op ∧ rdOf (encodeR f7 rs2 rs1 f3 rd op) = rd ∧
    (encodeR f7 rs2 rs1 f3 rd op).extractLsb' 12 3 = f3 ∧ rs1Of (encodeR f7 rs2 rs1 f3 rd op) = rs1 ∧
    rs2Of (encodeR f7 rs2 rs1 f3 rd op) = rs2 ∧ (encodeR f7 rs2 rs1 f3 rd op).extractLsb' 25 7 = f7 := by
  refine ⟨?_, ?_, ?_, ?_, ?_, ?_⟩ <;> apply BitVec.eq_of_getLsbD_eq <;> intro i hi <;>
    simp only [rdOf, rs1Of, rs2Of, BitVec.getLsbD_extractLsb', encodeR_getLsbD, hi, decide_true, Bool.true_and] <;>
    interval_cases i <;> rfl

theorem encodeI_fields :
    (encodeI v rs1 f3 rd op).extractLsb' 0 7 = op ∧ rdOf (encodeI v rs1 f3 rd op) = rd ∧
    (encodeI v rs1 f3 rd op).extractLsb' 12 3 = f3 ∧ rs1Of (encodeI v rs1 f3 rd op) = rs1 ∧
    (encodeI v rs1 f3 rd op).extractLsb' 20 12 = v.extractLsb' 0 12 := by
  refine ⟨?_, ?_, ?_, ?_, ?_⟩ <;> apply BitVec.eq_of_getLsbD_eq <;> intro i hi <;>
    simp only [rdOf, rs1Of, BitVec.getLsbD_extractLsb', encodeI_getLsbD, hi, decide_true, Bool.true_and] <;>
    interval_cases i <;> simp

theorem encodeS_fields :
    (encodeS v rs2 rs1 f3 op).extractLsb' 0 7 = op ∧ (encodeS v rs2 rs1 f3 op).extractLsb' 12 3 = f3 ∧
    rs1Of (encodeS v rs2 rs1 f3 op) = rs1 ∧ rs2Of (encodeS v rs2 rs1 f3 op) = rs2 := by
  refine ⟨?_, ?_, ?_, ?_⟩ <;> apply BitVec.eq_of_getLsbD_eq <;> intro i hi <;>
    simp only [rs1Of, rs2Of, BitVec.getLsbD_extractLsb', encodeS_getLsbD, hi, decide_true, Bool.true_and] <;>
    interval_cases i <;> rfl

theorem encodeB_fields :
    (encodeB v rs2 rs1 f3 op).extractLsb' 0 7 = op ∧ (encodeB v rs2 rs1 f3 op).extractLsb' 12 3 = f3 ∧
    rs1Of (encodeB v rs2 rs1 f3 op) = rs1 ∧ rs2Of (encodeB v rs2 rs1 f3 op) = rs2 := by
  refine ⟨?_, ?_, ?_, ?_⟩ <;> apply BitVec.eq_of_getLsbD_eq <;> intro i hi <;>
    simp only [rs1Of, rs2Of, BitVec.getLsbD_extractLsb', encodeB_getLsbD, hi, decide_true, Bool.true_and] <;>
    interval_cases i <;> rfl

theorem encodeU_fields : (encodeU v rd op).extractLsb' 0 7 = op ∧ rdOf (encodeU v rd op) = rd := by
  refine ⟨?_, ?_⟩ <;> apply BitVec.eq_of_getLsbD_eq <;> intro i hi <;>
    simp only [rdOf, BitVec.getLsbD_extractLsb', encodeU_getLsbD, hi, decide_true, Bool.true_and] <;>
    interval_cases i <;> rfl

theorem encodeJ_fields : (encodeJ v rd op).extractLsb' 0 7 = op ∧ rdOf (encodeJ v rd op) = rd := by
  refine ⟨?_, ?_⟩ <;> apply BitVec.eq_of_getLsbD_eq <;> intro i hi <;>
    simp only [rdOf, BitVec.getLsbD_extractLsb', encodeJ_getLsbD, hi, decide_true, Bool.true_and] <;>
    interval_cases i <;> rfl

theorem encodeCsr_fields :
    (encodeCsr csr rs1 f3 rd).extractLsb' 0 7 = 0x73#7 ∧ rdOf (encodeCsr csr rs1 f3 rd) = rd ∧
    (encodeCsr csr rs1 f3 rd).extractLsb' 12 3 = f3 ∧ rs1Of (encodeCsr csr rs1 f3 rd) = rs1 ∧
    csrOf (encodeCsr csr rs1 f3 rd) = csr := by
  refine ⟨?_, ?_, ?_, ?_, ?_⟩ <;> apply BitVec.eq_of_getLsbD_eq <;> intro i hi <;>
    simp only [rdOf, rs1Of, csrOf, BitVec.getLsbD_extractLsb', encodeCsr_getLsbD, hi, decide_true, Bool.true_and] <;>
    interval_cases i <;> rfl

/-! ### Immediates: what fits is recovered (R63 to R67, R69) -/

variable {v}

theorem signExtend_low12 (h : fitsImm12 v = true) : (v.extractLsb' 0 12).signExtend 32 = v := by
  simp only [fitsImm12, Bool.and_eq_true, decide_eq_true_eq] at h
  apply BitVec.eq_of_toInt_eq
  rw [BitVec.toInt_signExtend_of_le (by omega), BitVec.toInt_eq_toNat_bmod, BitVec.extractLsb'_toNat]
  have := BitVec.toInt_eq_toNat_cond v
  have := v.isLt
  simp only [Nat.shiftRight_zero, Int.bmod_def]
  split_ifs at * <;> omega

theorem signExtend_low13 (h : -4096 ≤ v.toInt ∧ v.toInt ≤ 4094) : (v.extractLsb' 0 13).signExtend 32 = v := by
  apply BitVec.eq_of_toInt_eq
  rw [BitVec.toInt_signExtend_of_le (by omega), BitVec.toInt_eq_toNat_bmod, BitVec.extractLsb'_toNat]
  have := BitVec.toInt_eq_toNat_cond v
  have := v.isLt
  simp only [Nat.shiftRight_zero, Int.bmod_def]
  split_ifs at * <;> omega

theorem signExtend_low21 (h : -1048576 ≤ v.toInt ∧ v.toInt ≤ 1048574) : (v.extractLsb' 0 21).signExtend 32 = v := by
  apply BitVec.eq_of_toInt_eq
  rw [BitVec.toInt_signExtend_of_le (by omega), BitVec.toInt_eq_toNat_bmod, BitVec.extractLsb'_toNat]
  have := BitVec.toInt_eq_toNat_cond v
  have := v.isLt
  simp only [Nat.shiftRight_zero, Int.bmod_def]
  split_ifs at * <;> omega

theorem immI_encodeI (h : fitsImm12 v = true) : immI (encodeI v rs1 f3 rd op) = v := by
  rw [immI, (encodeI_fields rs1 rd f3 op v).2.2.2.2, signExtend_low12 h]

theorem immS_encodeS (h : fitsImm12 v = true) : immS (encodeS v rs2 rs1 f3 op) = v := by
  have e : ((encodeS v rs2 rs1 f3 op).extractLsb' 25 7 ++ (encodeS v rs2 rs1 f3 op).extractLsb' 7 5 : BitVec 12)
      = v.extractLsb' 0 12 := by
    apply BitVec.eq_of_getLsbD_eq; intro i hi
    rw [BitVec.getLsbD_append]
    simp only [BitVec.getLsbD_extractLsb', encodeS_getLsbD]
    interval_cases i <;> simp
  rw [immS, e, signExtend_low12 h]

theorem immB_encodeB (h : fitsOffsetB v = true) : immB (encodeB v rs2 rs1 f3 op) = v := by
  simp only [fitsOffsetB, Bool.and_eq_true, decide_eq_true_eq, Bool.not_eq_true'] at h
  have e : ((encodeB v rs2 rs1 f3 op).extractLsb' 31 1 ++ (encodeB v rs2 rs1 f3 op).extractLsb' 7 1
      ++ (encodeB v rs2 rs1 f3 op).extractLsb' 25 6 ++ (encodeB v rs2 rs1 f3 op).extractLsb' 8 4 ++ 0#1 : BitVec 13)
      = v.extractLsb' 0 13 := by
    apply BitVec.eq_of_getLsbD_eq; intro i hi
    repeat rw [BitVec.getLsbD_append]
    simp only [BitVec.getLsbD_extractLsb', encodeB_getLsbD]
    interval_cases i <;> simp
    simpa using h.2.symm
  rw [immB, e, signExtend_low13 h.1]

theorem immJ_encodeJ (h : fitsOffsetJ v = true) : immJ (encodeJ v rd op) = v := by
  simp only [fitsOffsetJ, Bool.and_eq_true, decide_eq_true_eq, Bool.not_eq_true'] at h
  have e : ((encodeJ v rd op).extractLsb' 31 1 ++ (encodeJ v rd op).extractLsb' 12 8
      ++ (encodeJ v rd op).extractLsb' 20 1 ++ (encodeJ v rd op).extractLsb' 21 10 ++ 0#1 : BitVec 21)
      = v.extractLsb' 0 21 := by
    apply BitVec.eq_of_getLsbD_eq; intro i hi
    repeat rw [BitVec.getLsbD_append]
    simp only [BitVec.getLsbD_extractLsb', encodeJ_getLsbD]
    interval_cases i <;> simp
    simpa using h.2.symm
  rw [immJ, e, signExtend_low21 h.1]

theorem immU_encodeU (h : fitsImmU v = true) : immU (encodeU v rd op) = v := by
  simp only [fitsImmU, beq_iff_eq] at h
  apply BitVec.eq_of_getLsbD_eq; intro i hi
  simp only [immU]
  rw [BitVec.getLsbD_append]
  simp only [BitVec.getLsbD_extractLsb', encodeU_getLsbD]
  by_cases h12 : i < 12
  · have := congrArg (fun b => b.getLsbD i) h
    simp only [BitVec.getLsbD_extractLsb', h12, decide_true, Bool.true_and, Nat.zero_add] at this
    simp [h12, this]
  · simp [h12, show 12 + (i - 12) = i by omega, show ¬ i < 7 by omega, show i - 12 < 20 by omega]

/-! ### When a row accepts a word (R71, R76) -/

theorem and_mask_op (w p : Word) (hp : p &&& 0x0000007F#32 = p) :
    w &&& 0x0000007F#32 = p ↔ w.extractLsb' 0 7 = p.extractLsb' 0 7 := by
  constructor
  · rintro rfl; apply BitVec.eq_of_getLsbD_eq; intro i hi; interval_cases i <;> simp
  · intro h; rw [← hp]; apply BitVec.eq_of_getLsbD_eq; intro i hi
    have h' : ∀ k, k < 7 → w.getLsbD k = p.getLsbD k := fun k hk => by
      have := congrArg (fun b => b.getLsbD k) h
      simpa [BitVec.getLsbD_extractLsb', hk] using this
    rw [BitVec.getLsbD_and, BitVec.getLsbD_and]
    by_cases hi7 : i < 7
    · rw [h' i hi7]
    · have : (0x0000007F#32).getLsbD i = false := by interval_cases i <;> rfl
      rw [this, Bool.and_false, Bool.and_false]

theorem and_mask_op_f3 (w p : Word) (hp : p &&& 0x0000707F#32 = p) :
    w &&& 0x0000707F#32 = p ↔ w.extractLsb' 0 7 = p.extractLsb' 0 7 ∧ w.extractLsb' 12 3 = p.extractLsb' 12 3 := by
  constructor
  · rintro rfl; constructor <;> apply BitVec.eq_of_getLsbD_eq <;> intro i hi <;> interval_cases i <;> simp
  · rintro ⟨h, h3⟩; rw [← hp]; apply BitVec.eq_of_getLsbD_eq; intro i hi
    have h' : ∀ k, k < 7 → w.getLsbD k = p.getLsbD k := fun k hk => by
      have := congrArg (fun b => b.getLsbD k) h
      simpa [BitVec.getLsbD_extractLsb', hk] using this
    have h3' : ∀ k, k < 3 → w.getLsbD (12 + k) = p.getLsbD (12 + k) := fun k hk => by
      have := congrArg (fun b => b.getLsbD k) h3
      simpa [BitVec.getLsbD_extractLsb', hk] using this
    rw [BitVec.getLsbD_and, BitVec.getLsbD_and]
    by_cases hi7 : i < 7
    · rw [h' i hi7]
    · by_cases hi3 : 12 ≤ i ∧ i < 15
      · have := h3' (i - 12) (by omega)
        rw [show 12 + (i - 12) = i by omega] at this
        rw [this]
      · have : (0x0000707F#32).getLsbD i = false := by interval_cases i <;> first | rfl | omega
        rw [this, Bool.and_false, Bool.and_false]

theorem and_mask_op_f3_f7 (w p : Word) (hp : p &&& 0xFE00707F#32 = p) :
    w &&& 0xFE00707F#32 = p ↔ (w.extractLsb' 0 7 = p.extractLsb' 0 7 ∧ w.extractLsb' 12 3 = p.extractLsb' 12 3) ∧
      w.extractLsb' 25 7 = p.extractLsb' 25 7 := by
  constructor
  · rintro rfl; refine ⟨⟨?_, ?_⟩, ?_⟩ <;> apply BitVec.eq_of_getLsbD_eq <;> intro i hi <;> interval_cases i <;> simp
  · rintro ⟨⟨h, h3⟩, h7⟩; rw [← hp]; apply BitVec.eq_of_getLsbD_eq; intro i hi
    have h' : ∀ k, k < 7 → w.getLsbD k = p.getLsbD k := fun k hk => by
      have := congrArg (fun b => b.getLsbD k) h
      simpa [BitVec.getLsbD_extractLsb', hk] using this
    have h3' : ∀ k, k < 3 → w.getLsbD (12 + k) = p.getLsbD (12 + k) := fun k hk => by
      have := congrArg (fun b => b.getLsbD k) h3
      simpa [BitVec.getLsbD_extractLsb', hk] using this
    have h7' : ∀ k, k < 7 → w.getLsbD (25 + k) = p.getLsbD (25 + k) := fun k hk => by
      have := congrArg (fun b => b.getLsbD k) h7
      simpa [BitVec.getLsbD_extractLsb', hk] using this
    rw [BitVec.getLsbD_and, BitVec.getLsbD_and]
    by_cases hi7 : i < 7
    · rw [h' i hi7]
    · by_cases hi3 : 12 ≤ i ∧ i < 15
      · have := h3' (i - 12) (by omega)
        rw [show 12 + (i - 12) = i by omega] at this
        rw [this]
      · by_cases hi25 : 25 ≤ i
        · have := h7' (i - 25) (by omega)
          rw [show 25 + (i - 25) = i by omega] at this
          rw [this]
        · have : (0xFE00707F#32).getLsbD i = false := by interval_cases i <;> first | rfl | omega
          rw [this, Bool.and_false, Bool.and_false]

/-! ### The first-match scan (R71, R72) -/

/-- No two rows of the table overlap: some bit fixed in both has different values (R72). -/
theorem patternTable_disjoint :
    patternTable.Pairwise fun r q => (r.pattern ^^^ q.pattern) &&& r.mask &&& q.mask ≠ 0#32 := by decide

theorem Row.not_accepts_of_disjoint {r q : Row} (h : (r.pattern ^^^ q.pattern) &&& r.mask &&& q.mask ≠ 0#32) {w : Word}
    (hr : r.accepts w = true) : q.accepts w = false := by
  by_contra hq
  rw [Bool.not_eq_false] at hq
  simp only [Row.accepts, beq_iff_eq] at hr hq
  apply h
  rw [← hr, ← hq]
  apply BitVec.eq_of_getLsbD_eq; intro i hi
  simp only [BitVec.getLsbD_and, BitVec.getLsbD_xor, BitVec.getLsbD_zero]
  cases w.getLsbD i <;> cases r.mask.getLsbD i <;> cases q.mask.getLsbD i <;> rfl

/-- In the rows of a core, at most one accepts a word (R72). -/
theorem rowsOf_disjoint (g : Groups) (w : Word) :
    (rowsOf g).Pairwise fun r q => r.accepts w = true → q.accepts w = false :=
  (patternTable_disjoint.filter _).imp fun h hr => Row.not_accepts_of_disjoint h hr

/-- Where at most one element satisfies a test, the first that does is any that does. -/
theorem find_of_pairwise {α : Type} {p : α → Bool} {l : List α} (hl : l.Pairwise fun a b => p a = true → p b = false)
    {a : α} (ha : a ∈ l) (hp : p a = true) : l.find? p = some a := by
  induction l with
  | nil => cases ha
  | cons b l ih =>
    rw [List.pairwise_cons] at hl
    rcases List.mem_cons.mp ha with rfl | ha'
    · simp [List.find?, hp]
    · have hb : p b = false := by
        by_contra hb
        rw [Bool.not_eq_false] at hb
        have := hl.1 a ha' hb
        rw [hp] at this; cases this
      simp only [List.find?, hb]
      exact ih hl.2 ha'

/-- The row a core's decoder takes: one of the table's, of a group that is present, that accepts the word. -/
theorem mem_rowsOf {g : Groups} {r : Row} : r ∈ rowsOf g ↔ r ∈ patternTable ∧ g.has r.group = true := List.mem_filter

theorem find_rowsOf_eq_some_iff (g : Groups) (w : Word) (r : Row) :
    ((rowsOf g).find? fun r => r.accepts w) = some r ↔ r ∈ rowsOf g ∧ r.accepts w = true :=
  ⟨fun h => ⟨List.mem_of_find?_eq_some h, by simpa using List.find?_some h⟩,
    fun h => find_of_pairwise (p := fun r => Row.accepts r w) (rowsOf_disjoint g w) h.1 h.2⟩

/-- What the decoder reads: the instruction of the one row that is present and accepts the word (R70, R71). -/
theorem decodeWord_eq_some_iff (g : Groups) (w : Word) (i : Instr) :
    decodeWord g w = some i ↔
      ∃ r ∈ patternTable, g.has r.group = true ∧ r.accepts w = true ∧ r.build w = i := by
  simp only [decodeWord, Option.map_eq_some_iff, find_rowsOf_eq_some_iff, mem_rowsOf]
  constructor
  · rintro ⟨r, ⟨⟨h1, h2⟩, h3⟩, h4⟩; exact ⟨r, h1, h2, h3, h4⟩
  · rintro ⟨r, h1, h2, h3, h4⟩; exact ⟨r, ⟨⟨h1, h2⟩, h3⟩, h4⟩

/-- What the decoder does not read: no row that is present accepts the word (R73). -/
theorem decodeWord_eq_none_iff (g : Groups) (w : Word) :
    decodeWord g w = none ↔ ∀ r ∈ rowsOf g, r.accepts w = false := by
  simp [decodeWord]

end Sys2Proof
end

