-- ==== Sys2Proof/Laws/State.lean ====
section
/-! SUPPORT. One lemma per field per update of the state, true by definition, and what the register and CSR accessors read after each
update. No later proof unfolds a record update. -/

namespace Sys2Proof.Machine

variable (s : State)

/-! ### `setReg` -/

@[simp] theorem State.setReg_x (r : RegIdx) (v : Word) : (s.setReg r v).x = s.x.set r.toNat v r.isLt := rfl
@[simp] theorem State.setReg_pc (r : RegIdx) (v : Word) : (s.setReg r v).pc = s.pc := rfl
@[simp] theorem State.setReg_mstatus (r : RegIdx) (v : Word) : (s.setReg r v).mstatus = s.mstatus := rfl
@[simp] theorem State.setReg_mtvec (r : RegIdx) (v : Word) : (s.setReg r v).mtvec = s.mtvec := rfl
@[simp] theorem State.setReg_mepc (r : RegIdx) (v : Word) : (s.setReg r v).mepc = s.mepc := rfl
@[simp] theorem State.setReg_mcause (r : RegIdx) (v : Word) : (s.setReg r v).mcause = s.mcause := rfl
@[simp] theorem State.setReg_mem (r : RegIdx) (v : Word) : (s.setReg r v).mem = s.mem := rfl
@[simp] theorem State.setReg_status (r : RegIdx) (v : Word) : (s.setReg r v).status = s.status := rfl
@[simp] theorem State.setReg_result (r : RegIdx) (v : Word) : (s.setReg r v).result = s.result := rfl
@[simp] theorem State.setReg_params (r : RegIdx) (v : Word) : (s.setReg r v).params = s.params := rfl

/-! ### `setByte` -/

@[simp] theorem State.setByte_x (a : Word) (v : Byte) : (s.setByte a v).x = s.x := rfl
@[simp] theorem State.setByte_pc (a : Word) (v : Byte) : (s.setByte a v).pc = s.pc := rfl
@[simp] theorem State.setByte_mstatus (a : Word) (v : Byte) : (s.setByte a v).mstatus = s.mstatus := rfl
@[simp] theorem State.setByte_mtvec (a : Word) (v : Byte) : (s.setByte a v).mtvec = s.mtvec := rfl
@[simp] theorem State.setByte_mepc (a : Word) (v : Byte) : (s.setByte a v).mepc = s.mepc := rfl
@[simp] theorem State.setByte_mcause (a : Word) (v : Byte) : (s.setByte a v).mcause = s.mcause := rfl
@[simp] theorem State.setByte_mem (a : Word) (v : Byte) : (s.setByte a v).mem = Memory.write s.mem a.toNat v := rfl
@[simp] theorem State.setByte_status (a : Word) (v : Byte) : (s.setByte a v).status = s.status := rfl
@[simp] theorem State.setByte_result (a : Word) (v : Byte) : (s.setByte a v).result = s.result := rfl
@[simp] theorem State.setByte_params (a : Word) (v : Byte) : (s.setByte a v).params = s.params := rfl

/-! ### `commit` -/

@[simp] theorem State.commit_x (r : StepResult) (d : Word) : (s.commit r d).x = s.x.set 0 0#32 := rfl
@[simp] theorem State.commit_pc (r : StepResult) (d : Word) : (s.commit r d).pc = d := rfl
@[simp] theorem State.commit_mstatus (r : StepResult) (d : Word) : (s.commit r d).mstatus = s.mstatus := rfl
@[simp] theorem State.commit_mtvec (r : StepResult) (d : Word) : (s.commit r d).mtvec = s.mtvec := rfl
@[simp] theorem State.commit_mepc (r : StepResult) (d : Word) : (s.commit r d).mepc = s.mepc := rfl
@[simp] theorem State.commit_mcause (r : StepResult) (d : Word) : (s.commit r d).mcause = s.mcause := rfl
@[simp] theorem State.commit_mem (r : StepResult) (d : Word) : (s.commit r d).mem = s.mem := rfl
@[simp] theorem State.commit_status (r : StepResult) (d : Word) : (s.commit r d).status = s.status := rfl
@[simp] theorem State.commit_result (r : StepResult) (d : Word) : (s.commit r d).result = some r := rfl
@[simp] theorem State.commit_params (r : StepResult) (d : Word) : (s.commit r d).params = s.params := rfl

/-! ### `halt` -/

@[simp] theorem State.halt_x (r : HaltReason) : (s.halt r).x = s.x := rfl
@[simp] theorem State.halt_pc (r : HaltReason) : (s.halt r).pc = s.pc := rfl
@[simp] theorem State.halt_mstatus (r : HaltReason) : (s.halt r).mstatus = s.mstatus := rfl
@[simp] theorem State.halt_mtvec (r : HaltReason) : (s.halt r).mtvec = s.mtvec := rfl
@[simp] theorem State.halt_mepc (r : HaltReason) : (s.halt r).mepc = s.mepc := rfl
@[simp] theorem State.halt_mcause (r : HaltReason) : (s.halt r).mcause = s.mcause := rfl
@[simp] theorem State.halt_mem (r : HaltReason) : (s.halt r).mem = s.mem := rfl
@[simp] theorem State.halt_status (r : HaltReason) : (s.halt r).status = .halted r := rfl
@[simp] theorem State.halt_result (r : HaltReason) : (s.halt r).result = some (.halted r) := rfl
@[simp] theorem State.halt_params (r : HaltReason) : (s.halt r).params = s.params := rfl

/-! ### `takeTrap` -/

@[simp] theorem State.takeTrap_x (k : Word) : (s.takeTrap k).x = s.x.set 0 0#32 := rfl
@[simp] theorem State.takeTrap_pc (k : Word) : (s.takeTrap k).pc = (s.dispatchTrap k s.pc).resume := rfl
@[simp] theorem State.takeTrap_mstatus (k : Word) : (s.takeTrap k).mstatus = s.mstatus := rfl
@[simp] theorem State.takeTrap_mtvec (k : Word) : (s.takeTrap k).mtvec = s.mtvec := rfl
@[simp] theorem State.takeTrap_mepc (k : Word) : (s.takeTrap k).mepc = (s.dispatchTrap k s.pc).mepc := rfl
@[simp] theorem State.takeTrap_mcause (k : Word) : (s.takeTrap k).mcause = (s.dispatchTrap k s.pc).mcause := rfl
@[simp] theorem State.takeTrap_mem (k : Word) : (s.takeTrap k).mem = s.mem := rfl
@[simp] theorem State.takeTrap_status (k : Word) : (s.takeTrap k).status = s.status := rfl
@[simp] theorem State.takeTrap_result (k : Word) : (s.takeTrap k).result = some (.trapped k s.pc) := rfl
@[simp] theorem State.takeTrap_params (k : Word) : (s.takeTrap k).params = s.params := rfl

/-! ### `setCsr`: the CSR words are in `csr_setCsr` below -/

@[simp] theorem State.setCsr_x (c : Csr) (v : Word) : (s.setCsr c v).x = s.x := by cases c <;> rfl
@[simp] theorem State.setCsr_pc (c : Csr) (v : Word) : (s.setCsr c v).pc = s.pc := by cases c <;> rfl
@[simp] theorem State.setCsr_mem (c : Csr) (v : Word) : (s.setCsr c v).mem = s.mem := by cases c <;> rfl
@[simp] theorem State.setCsr_status (c : Csr) (v : Word) : (s.setCsr c v).status = s.status := by cases c <;> rfl
@[simp] theorem State.setCsr_result (c : Csr) (v : Word) : (s.setCsr c v).result = s.result := by cases c <;> rfl
@[simp] theorem State.setCsr_params (c : Csr) (v : Word) : (s.setCsr c v).params = s.params := by cases c <;> rfl

/-! ### `memWrite` -/

@[simp] theorem State.memWrite_x (a : Word) (n : Width) (v : Word) : (s.memWrite a n v).x = s.x := by cases n <;> rfl
@[simp] theorem State.memWrite_pc (a : Word) (n : Width) (v : Word) : (s.memWrite a n v).pc = s.pc := by cases n <;> rfl
@[simp] theorem State.memWrite_mstatus (a : Word) (n : Width) (v : Word) : (s.memWrite a n v).mstatus = s.mstatus := by cases n <;> rfl
@[simp] theorem State.memWrite_mtvec (a : Word) (n : Width) (v : Word) : (s.memWrite a n v).mtvec = s.mtvec := by cases n <;> rfl
@[simp] theorem State.memWrite_mepc (a : Word) (n : Width) (v : Word) : (s.memWrite a n v).mepc = s.mepc := by cases n <;> rfl
@[simp] theorem State.memWrite_mcause (a : Word) (n : Width) (v : Word) : (s.memWrite a n v).mcause = s.mcause := by cases n <;> rfl
@[simp] theorem State.memWrite_status (a : Word) (n : Width) (v : Word) : (s.memWrite a n v).status = s.status := by cases n <;> rfl
@[simp] theorem State.memWrite_result (a : Word) (n : Width) (v : Word) : (s.memWrite a n v).result = s.result := by cases n <;> rfl
@[simp] theorem State.memWrite_params (a : Word) (n : Width) (v : Word) : (s.memWrite a n v).params = s.params := by cases n <;> rfl

/-! ### Reading a register after each update -/

@[simp] theorem State.reg_setReg_same (r : RegIdx) (v : Word) : (s.setReg r v).reg r = v := by
  simp [State.reg]

theorem State.reg_setReg_of_ne {r q : RegIdx} (h : q ≠ r) (v : Word) : (s.setReg r v).reg q = s.reg q := by
  have : r.toNat ≠ q.toNat := fun e => h (BitVec.eq_of_toNat_eq e.symm)
  simp [State.reg, this]

/-- The commit forces x0 to 0 and keeps every other register (R21, R75 step 6). -/
theorem State.reg_commit (res : StepResult) (d : Word) (q : RegIdx) :
    (s.commit res d).reg q = if q = 0#5 then 0#32 else s.reg q := by
  by_cases h : q = 0#5
  · subst h; simp [State.reg]
  · have : 0 ≠ q.toNat := fun e => h (BitVec.eq_of_toNat_eq (by simpa using e.symm))
    simp [State.reg, h, this]

@[simp] theorem State.reg_setCsr (c : Csr) (v : Word) (q : RegIdx) : (s.setCsr c v).reg q = s.reg q := by
  simp [State.reg]

@[simp] theorem State.reg_setByte (a : Word) (v : Byte) (q : RegIdx) : (s.setByte a v).reg q = s.reg q := rfl

@[simp] theorem State.reg_memWrite (a : Word) (n : Width) (v : Word) (q : RegIdx) : (s.memWrite a n v).reg q = s.reg q := by
  simp [State.reg]

@[simp] theorem State.reg_halt (r : HaltReason) (q : RegIdx) : (s.halt r).reg q = s.reg q := rfl

theorem State.reg_takeTrap (k : Word) (q : RegIdx) :
    (s.takeTrap k).reg q = if q = 0#5 then 0#32 else s.reg q := by
  rw [State.takeTrap, State.reg_commit]; rfl

/-! ### Reading a CSR after each update -/

@[simp] theorem State.csr_setCsr_same (c : Csr) (v : Word) : (s.setCsr c v).csr c = v := by cases c <;> rfl

theorem State.csr_setCsr_of_ne {c d : Csr} (h : d ≠ c) (v : Word) : (s.setCsr c v).csr d = s.csr d := by
  cases c <;> cases d <;> first | rfl | exact absurd rfl h

@[simp] theorem State.csr_setReg (r : RegIdx) (v : Word) (c : Csr) : (s.setReg r v).csr c = s.csr c := by cases c <;> rfl

@[simp] theorem State.csr_commit (res : StepResult) (d : Word) (c : Csr) : (s.commit res d).csr c = s.csr c := by cases c <;> rfl

@[simp] theorem State.csr_memWrite (a : Word) (n : Width) (v : Word) (c : Csr) : (s.memWrite a n v).csr c = s.csr c := by
  cases c <;> simp [State.csr]

@[simp] theorem State.csr_halt (r : HaltReason) (c : Csr) : (s.halt r).csr c = s.csr c := by cases c <;> rfl

/-! ### Reading a byte after each update that leaves memory alone -/

@[simp] theorem State.byteAt_setReg (r : RegIdx) (v : Word) (a : Word) : (s.setReg r v).byteAt a = s.byteAt a := rfl
@[simp] theorem State.byteAt_setCsr (c : Csr) (v : Word) (a : Word) : (s.setCsr c v).byteAt a = s.byteAt a := by
  simp [State.byteAt]
@[simp] theorem State.byteAt_commit (res : StepResult) (d : Word) (a : Word) : (s.commit res d).byteAt a = s.byteAt a := rfl
@[simp] theorem State.byteAt_halt (r : HaltReason) (a : Word) : (s.halt r).byteAt a = s.byteAt a := rfl
@[simp] theorem State.byteAt_takeTrap (k : Word) (a : Word) : (s.takeTrap k).byteAt a = s.byteAt a := rfl

end Sys2Proof.Machine
end

