-- ==== Sys2Proof/Laws/Memory.lean ====
section
/-! SUPPORT. The laws of memory: a read after a write, and the canonical form that every memory operation keeps. -/

namespace Sys2Proof.Machine

/-- A canonical memory from `lo` on lists nothing below `lo`. -/
theorem Memory.read_below {lo : Nat} {m : List Host.Cell} (h : Memory.wfFrom lo m = true) {a : Nat} (ha : a < lo) :
    Memory.read m a = unwrittenByte := by
  induction m generalizing lo with
  | nil => rfl
  | cons c m ih =>
    obtain ⟨k, v⟩ := c
    simp only [Memory.wfFrom, Bool.and_eq_true, decide_eq_true_eq] at h
    have hk : a ≠ k := by omega
    simp only [Memory.read, hk, if_false]
    exact ih h.2 (by omega)

/-- The canonical form from an address holds from every lower address. -/
theorem Memory.wfFrom_mono {lo lo' : Nat} {m : List Host.Cell} (h : Memory.wfFrom lo m = true) (hl : lo' ≤ lo) :
    Memory.wfFrom lo' m = true := by
  cases m with
  | nil => rfl
  | cons c m =>
    simp only [Memory.wfFrom, Bool.and_eq_true, decide_eq_true_eq] at h ⊢
    exact ⟨⟨⟨by omega, h.1.1.2⟩, h.1.2⟩, h.2⟩

theorem Memory.read_cons (a : Nat) (v : Byte) {m : List Host.Cell} (h : Memory.wfFrom (a + 1) m = true) (b : Nat) :
    Memory.read (Memory.cons a v m) b = if b = a then v else Memory.read m b := by
  by_cases hv : v = unwrittenByte
  · by_cases hb : b = a
    · subst hb hv; simp [Memory.cons, Memory.read_below h (Nat.lt_succ_self _)]
    · simp [Memory.cons, hv, hb]
  · simp [Memory.cons, hv, Memory.read]

theorem Memory.wfFrom_cons {a : Nat} (ha : a < 2 ^ 32) (v : Byte) {m : List Host.Cell} (h : Memory.wfFrom (a + 1) m = true)
    {lo : Nat} (hl : lo ≤ a) : Memory.wfFrom lo (Memory.cons a v m) = true := by
  by_cases hv : v = unwrittenByte
  · simp only [Memory.cons, hv, if_true]
    exact Memory.wfFrom_mono h (by omega)
  · simp only [Memory.cons, hv, if_false, Memory.wfFrom, Bool.and_eq_true, decide_eq_true_eq]
    exact ⟨⟨⟨hl, ha⟩, by simpa using hv⟩, h⟩

/-- Read after write, from any lower bound: the written byte at its address, the old byte everywhere else. -/
theorem Memory.read_write_from {lo : Nat} {m : List Host.Cell} (h : Memory.wfFrom lo m = true) (a : Nat) (v : Byte) (b : Nat) :
    Memory.read (Memory.write m a v) b = if b = a then v else Memory.read m b := by
  induction m generalizing lo with
  | nil => exact Memory.read_cons a v rfl b
  | cons c m ih =>
    obtain ⟨k, w⟩ := c
    have h' := h
    simp only [Memory.wfFrom, Bool.and_eq_true, decide_eq_true_eq] at h'
    obtain ⟨⟨⟨hlo, hk⟩, hw⟩, hm⟩ := h'
    simp only [Memory.write]
    split
    · rename_i hak
      refine Memory.read_cons a v ?_ b
      simp only [Memory.wfFrom, Bool.and_eq_true, decide_eq_true_eq]
      exact ⟨⟨⟨hak, hk⟩, hw⟩, hm⟩
    · split
      · rename_i hak
        subst hak
        rw [Memory.read_cons a v hm b]
        by_cases hb : b = a <;> simp [hb, Memory.read]
      · rename_i hak
        simp only [Memory.read, ih hm]
        by_cases hb : b = k
        · subst hb; simp [Ne.symm hak]
        · simp [hb]

/-- A write keeps the canonical form, from any lower bound. -/
theorem Memory.wfFrom_write {lo : Nat} {m : List Host.Cell} (h : Memory.wfFrom lo m = true) {a : Nat} (hl : lo ≤ a)
    (ha : a < 2 ^ 32) (v : Byte) : Memory.wfFrom lo (Memory.write m a v) = true := by
  induction m generalizing lo with
  | nil => exact Memory.wfFrom_cons ha v rfl hl
  | cons c m ih =>
    obtain ⟨k, w⟩ := c
    have h' := h
    simp only [Memory.wfFrom, Bool.and_eq_true, decide_eq_true_eq] at h'
    obtain ⟨⟨⟨hlo, hk⟩, hw⟩, hm⟩ := h'
    simp only [Memory.write]
    split
    · rename_i hak
      refine Memory.wfFrom_cons ha v ?_ hl
      simp only [Memory.wfFrom, Bool.and_eq_true, decide_eq_true_eq]
      exact ⟨⟨⟨hak, hk⟩, hw⟩, hm⟩
    · split
      · rename_i hak
        subst hak
        exact Memory.wfFrom_cons ha v hm hl
      · simp only [Memory.wfFrom, Bool.and_eq_true, decide_eq_true_eq]
        exact ⟨⟨⟨hlo, hk⟩, hw⟩, ih hm (by omega)⟩

/-- Read after write in a canonical memory. -/
theorem Memory.read_write {m : List Host.Cell} (h : Memory.wf m = true) (a : Nat) (v : Byte) (b : Nat) :
    Memory.read (Memory.write m a v) b = if b = a then v else Memory.read m b :=
  Memory.read_write_from h a v b

/-- A write keeps the canonical form. -/
theorem Memory.wf_write {m : List Host.Cell} (h : Memory.wf m = true) {a : Nat} (ha : a < 2 ^ 32) (v : Byte) :
    Memory.wf (Memory.write m a v) = true :=
  Memory.wfFrom_write h (Nat.zero_le a) ha v

/-- Every image gives a canonical memory. -/
theorem Memory.wf_ofImage (image : List (Word × Byte)) : Memory.wf (Memory.ofImage image) = true := by
  have key : ∀ (m : List Host.Cell), Memory.wf m = true →
      Memory.wf (image.foldl (fun m c => Memory.write m c.1.toNat c.2) m) = true := by
    induction image with
    | nil => exact fun m h => h
    | cons c cs ih => exact fun m h => ih _ (Memory.wf_write h c.1.isLt c.2)
  exact key [] rfl

/-- The memory at reset is canonical. -/
theorem State.reset_mem_wf : Memory.wf State.reset.mem = true := Memory.wf_ofImage _

/-- The canonical form after writing one byte. -/
theorem State.setByte_wf {s : State} (h : Memory.wf s.mem = true) (a : Word) (v : Byte) :
    Memory.wf (s.setByte a v).mem = true := Memory.wf_write h a.isLt v

/-- The canonical form after an access of any width. -/
theorem State.memWrite_wf {s : State} (h : Memory.wf s.mem = true) (a : Word) (n : Width) (v : Word) :
    Memory.wf (s.memWrite a n v).mem = true := by
  cases n with
  | byte => exact State.setByte_wf h _ _
  | half => exact State.setByte_wf (State.setByte_wf h _ _) _ _
  | word => exact State.setByte_wf (State.setByte_wf (State.setByte_wf (State.setByte_wf h _ _) _ _) _ _) _ _

/-- Reading a byte after writing one: the written byte at its address, the old byte everywhere else. -/
theorem State.byteAt_setByte {s : State} (h : Memory.wf s.mem = true) (a : Word) (v : Byte) (b : Word) :
    (s.setByte a v).byteAt b = if b = a then v else s.byteAt b := by
  simp only [State.byteAt, State.setByte_mem, Memory.read_write h, BitVec.toNat_inj]

/-- The bytes a `MemWrite` leaves: byte k of the value at `a + k` for k below the width, every other byte as it was (R43). -/
theorem State.byteAt_memWrite {s : State} (h : Memory.wf s.mem = true) (a : Word) (n : Width) (v : Word) (b : Word) :
    (s.memWrite a n v).byteAt b =
      if (b - a).toNat < n.bytes then byteOf v (b - a).toNat else s.byteAt b := by
  have h1 := State.setByte_wf h a (byteOf v 0)
  have h2 := State.setByte_wf h1 (a + 1) (byteOf v 1)
  have h3 := State.setByte_wf h2 (a + 2) (byteOf v 2)
  have e0 : b = a ↔ (b - a).toNat = 0 := by constructor <;> intro e <;> bv_omega
  have e1 : b = a + 1 ↔ (b - a).toNat = 1 := by constructor <;> intro e <;> bv_omega
  have e2 : b = a + 2 ↔ (b - a).toNat = 2 := by constructor <;> intro e <;> bv_omega
  have e3 : b = a + 3 ↔ (b - a).toNat = 3 := by constructor <;> intro e <;> bv_omega
  generalize (b - a).toNat = d at e0 e1 e2 e3
  cases n with
  | byte =>
    simp only [State.memWrite, State.byteAt_setByte h, Width.bytes, e0]
    by_cases hd : d = 0 <;> simp [hd]
  | half =>
    simp only [State.memWrite, State.byteAt_setByte h1, State.byteAt_setByte h, Width.bytes, e0, e1]
    by_cases hd : d = 1
    · simp [hd]
    · by_cases hd0 : d = 0
      · simp [hd0]
      · simp [hd, hd0, show ¬ d < 2 by omega]
  | word =>
    simp only [State.memWrite, State.byteAt_setByte h3, State.byteAt_setByte h2, State.byteAt_setByte h1,
      State.byteAt_setByte h, Width.bytes, e0, e1, e2, e3]
    by_cases h3' : d = 3
    · simp [h3']
    · by_cases h2' : d = 2
      · simp [h2']
      · by_cases h1' : d = 1
        · simp [h1']
        · by_cases h0' : d = 0
          · simp [h0']
          · simp [h0', h1', h2', h3', show ¬ d < 4 by omega]

end Sys2Proof.Machine
end

