-- ==== Sys2Proof/Laws/Ops.lean ====
section
/-! SUPPORT. For each shared operation, once, everything it can do; and what `exec` and `step` can answer. Later proofs cite these and do not
unfold the operations. -/

namespace Sys2Proof.Machine

variable {s t : State}

/-! ### Accesses and `PLAIN` -/

/-- An access is plain exactly when every one of its bytes is (R50). -/
theorem State.plainAccess_iff (a : Word) (n : Width) : s.plainAccess a n = true ↔ PlainRange s a n.bytes := by
  constructor
  · intro h k hk
    cases n <;> simp only [State.plainAccess, Bool.and_eq_true, Width.bytes] at h hk
    · obtain rfl : k = 0 := by omega
      simpa using h
    · rcases (by omega : k = 0 ∨ k = 1) with rfl | rfl
      · simpa using h.1
      · exact h.2
    · rcases (by omega : k = 0 ∨ k = 1 ∨ k = 2 ∨ k = 3) with rfl | rfl | rfl | rfl
      · simpa using h.1.1.1
      · exact h.1.1.2
      · exact h.1.2
      · exact h.2
  · intro h
    have h' : ∀ k, k < n.bytes → s.plain (a + BitVec.ofNat 32 k) = true := h
    cases n <;> simp only [State.plainAccess, Bool.and_eq_true, Width.bytes] at h' ⊢
    · simpa using h' 0 (by omega)
    · exact ⟨by simpa using h' 0 (by omega), h' 1 (by omega)⟩
    · exact ⟨⟨⟨by simpa using h' 0 (by omega), h' 1 (by omega)⟩, h' 2 (by omega)⟩, h' 3 (by omega)⟩

/-- The unsigned value of a byte read (R43). -/
theorem State.memRead_byte_toNat (a : Word) : (s.memRead a .byte).toNat = (s.byteAt a).toNat := by
  simp only [State.memRead, BitVec.toNat_setWidth]; omega

/-- The unsigned value of a half read: little-endian (R43). -/
theorem State.memRead_half_toNat (a : Word) :
    (s.memRead a .half).toNat = (s.byteAt (a + 1)).toNat * 256 + (s.byteAt a).toNat := by
  have h0 := (s.byteAt a).isLt
  have h1 := (s.byteAt (a + 1)).isLt
  simp only [State.memRead, BitVec.toNat_setWidth, BitVec.toNat_append, Nat.shiftLeft_eq]
  rw [← Nat.shiftLeft_eq, ← Nat.shiftLeft_add_eq_or_of_lt h0, Nat.shiftLeft_eq]; omega

/-- The unsigned value of a word of bytes: little-endian (R43, R45). -/
theorem wordOfBytes_toNat (b0 b1 b2 b3 : Byte) :
    (wordOfBytes b0 b1 b2 b3).toNat = b3.toNat * 16777216 + b2.toNat * 65536 + b1.toNat * 256 + b0.toNat := by
  have h0 := b0.isLt
  have h1 := b1.isLt
  have h2 := b2.isLt
  simp only [wordOfBytes, BitVec.toNat_append]
  rw [← Nat.shiftLeft_add_eq_or_of_lt h0, ← Nat.shiftLeft_add_eq_or_of_lt h1, ← Nat.shiftLeft_add_eq_or_of_lt h2]
  simp only [Nat.shiftLeft_eq]; omega

/-- Byte k of a word as a number. -/
theorem byteOf_toNat (v : Word) (k : Nat) : (byteOf v k).toNat = v.toNat / 256 ^ k % 256 := by
  simp only [byteOf, BitVec.extractLsb'_toNat, Nat.shiftRight_eq_div_pow, Nat.pow_mul]

/-! ### Ends of an instruction -/

/-- Writing `x[rd]` and going on changes only `x[rd]`, the pc and the result. -/
theorem State.retireTo_writesReg (rd : RegIdx) (v npc : Word) :
    WritesReg s ((s.setReg rd v).continueAt npc) rd v npc := by
  refine ⟨?_, ⟨?_, ?_⟩, ⟨rfl, rfl⟩, fun c => ?_, fun _ => rfl, rfl, rfl⟩
  · rw [State.continueAt, State.reg_commit]; simp
  · simp [State.continueAt, State.reg_commit]
  · intro r h0 h
    rw [State.continueAt, State.reg_commit, if_neg h0, State.reg_setReg_of_ne _ h]
  · simp [State.continueAt]

/-- Going on changes only the pc and the result, and forces x0 to 0. -/
theorem State.continueAt_onlyGoesTo (npc : Word) : OnlyGoesTo s (s.continueAt npc) npc := by
  refine ⟨⟨?_, ?_⟩, ⟨rfl, rfl⟩, fun c => ?_, fun _ => rfl, rfl, rfl⟩
  · simp [State.continueAt, State.reg_commit]
  · intro r h0; rw [State.continueAt, State.reg_commit, if_neg h0]
  · simp [State.continueAt]

/-- A store, once its access is plain, changes only its bytes, the pc and the result. -/
theorem State.memWrite_storesBytes (hw : Memory.wf s.mem = true) (a : Word) (n : Width) (v npc : Word) :
    StoresBytes s ((s.memWrite a n v).continueAt npc) a n.bytes v npc := by
  have hb : n.bytes ≤ 4 := by cases n <;> decide
  refine ⟨fun k hk => ?_, fun b hb' => ?_, ⟨?_, ?_⟩, ⟨rfl, rfl⟩, fun c => ?_, ?_, ?_⟩
  · have hd : (a + BitVec.ofNat 32 k - a).toNat = k := by
      rw [BitVec.add_comm, BitVec.add_sub_cancel, BitVec.toNat_ofNat, Nat.mod_eq_of_lt (by omega)]
    simp only [State.continueAt, State.byteAt_commit, State.byteAt_memWrite hw, hd, hk, if_true, byteOf_toNat]
  · have : ¬ (b - a).toNat < n.bytes := by
      intro hlt
      refine hb' _ hlt ?_
      rw [BitVec.ofNat_toNat, BitVec.setWidth_eq, BitVec.add_comm, BitVec.sub_add_cancel]
    simp only [State.continueAt, State.byteAt_commit, State.byteAt_memWrite hw, this, if_false]
  · simp [State.continueAt, State.reg_commit]
  · intro r h0; rw [State.continueAt, State.reg_commit, if_neg h0, State.reg_memWrite]
  · simp [State.continueAt]
  · simp [State.continueAt]
  · simp [State.continueAt]

/-- A CSR access on a mapped address changes only that CSR, `x[rd]`, the pc and the result (R177). -/
theorem State.csrUpdate_swapsCsr (c : Csr) (rd : RegIdx) (new : Word) :
    SwapsCsr s (((s.setCsr c new).setReg rd (s.csr c)).continueAt s.snpc) c rd new := by
  refine ⟨?_, fun d hd => ?_, ?_, ⟨?_, ?_⟩, ⟨rfl, rfl⟩, fun a => ?_, ?_, ?_⟩
  · simp [State.continueAt]
  · simp [State.continueAt, State.csr_setCsr_of_ne _ hd]
  · rw [State.continueAt, State.reg_commit]; simp
  · simp [State.continueAt, State.reg_commit]
  · intro r h0 h
    rw [State.continueAt, State.reg_commit, if_neg h0, State.reg_setReg_of_ne _ h, State.reg_setCsr]
  · simp [State.continueAt]
  · simp [State.continueAt]
  · simp [State.continueAt]

/-- A halt writes no register, CSR, memory or pc (R237). -/
theorem State.halt_onlyHalts (r : HaltReason) : OnlyHalts s (s.halt r) r :=
  ⟨rfl, rfl, fun _ => rfl, rfl, fun c => by simp, fun _ => rfl, rfl⟩

/-- Taking the trap changes only the CSRs the dispatch writes, the pc and the result (R232, R233). -/
theorem State.takeTrap_frame (k : Word) :
    SameRegs s (s.takeTrap k) ∧ SameBytes s (s.takeTrap k) ∧ SameControl s (s.takeTrap k) := by
  refine ⟨⟨?_, ?_⟩, fun _ => rfl, rfl, rfl⟩
  · simp [State.reg_takeTrap]
  · intro r h0; rw [State.reg_takeTrap, if_neg h0]

/-! ### CSR addresses -/

/-- The four mapped addresses and no other (R30). -/
theorem csrOfAddr_eq_some_iff (a : CsrAddr) (c : Csr) :
    csrOfAddr a = some c ↔
      (a, c) ∈ [(0x300#12, Csr.mstatus), (0x305#12, Csr.mtvec), (0x341#12, Csr.mepc), (0x342#12, Csr.mcause)] := by
  unfold csrOfAddr
  split
  · subst_vars; cases c <;> decide
  · split
    · subst_vars; cases c <;> decide
    · split
      · subst_vars; cases c <;> decide
      · split
        · subst_vars; cases c <;> decide
        · simp_all

/-- Every other address is unmapped (R170, R178). -/
theorem csrOfAddr_eq_none_iff (a : CsrAddr) :
    csrOfAddr a = none ↔ a ≠ 0x300#12 ∧ a ≠ 0x305#12 ∧ a ≠ 0x341#12 ∧ a ≠ 0x342#12 := by
  unfold csrOfAddr
  split
  · simp_all
  · split
    · simp_all
    · split
      · simp_all
      · split <;> simp_all

/-! ### Completion of the shared shapes -/

/-- A load of plain bytes writes its destination and goes on (R130). -/
theorem State.load_completes {rd rs1 : RegIdx} {imm : Word} {n : Width} {f : Word → Word}
    (h : PlainRange s (s.effAddr rs1 imm) n.bytes) :
    ∃ t, s.load rd rs1 imm n f = .next t ∧ WritesReg s t rd (f (s.memRead (s.effAddr rs1 imm) n)) s.snpc := by
  unfold State.load
  rw [if_pos ((State.plainAccess_iff _ _).mpr h)]
  exact ⟨_, rfl, State.retireTo_writesReg _ _ _⟩

/-- A store to plain bytes of a canonical memory writes them and goes on (R130). -/
theorem State.store_completes {rs1 rs2 : RegIdx} {imm : Word} {n : Width} (hw : Memory.wf s.mem = true)
    (h : PlainRange s (s.effAddr rs1 imm) n.bytes) :
    ∃ t, s.store rs1 rs2 imm n = .next t ∧ StoresBytes s t (s.effAddr rs1 imm) n.bytes (s.reg rs2) s.snpc := by
  unfold State.store
  rw [if_pos ((State.plainAccess_iff _ _).mpr h)]
  exact ⟨_, rfl, State.memWrite_storesBytes hw _ _ _ _⟩

/-- A CSR access on a mapped address swaps it and goes on (R177). -/
theorem State.csrUpdate_completes {inst : Word} {a : CsrAddr} {rd : RegIdx} {f : Word → Word} {c : Csr}
    (h : csrOfAddr a = some c) : ∃ t, s.csrUpdate inst a rd f = .next t ∧ SwapsCsr s t c rd (f (s.csr c)) := by
  refine ⟨((s.setCsr c (f (s.csr c))).setReg rd (s.csr c)).continueAt s.snpc, ?_, State.csrUpdate_swapsCsr _ _ _⟩
  unfold State.csrUpdate
  rw [h]
  simp [State.retire, State.retireTo, State.snpc]

/-- A CSR access on an unmapped address halts (R170). -/
theorem State.csrUpdate_halts {inst : Word} {a : CsrAddr} {rd : RegIdx} {f : Word → Word} (h : csrOfAddr a = none) :
    ∃ t, s.csrUpdate inst a rd f = .next t ∧ OnlyHalts s t (.unsupportedCsr s.pc inst a) := by
  refine ⟨_, ?_, State.halt_onlyHalts _⟩
  unfold State.csrUpdate
  rw [h]

/-! ### What `exec` can answer -/

/-- The next states `exec` can give for an instruction, one constructor for each way an instruction ends. -/
inductive ExecCase (i : Instr) (s : State) : State → Prop where
  /-- It writes its destination register and goes on. -/
  | writes (rd : RegIdx) (v npc : Word) (hd : i.dest = some rd) (hc : i.csrAddr = none) (hs : i.storeWidth = none)
      (he : i ≠ .ecall) (hb : i ≠ .ebreak) : ExecCase i s ((s.setReg rd v).continueAt npc)
  /-- It only goes on: a branch, `mret` or a fence. -/
  | goes (npc : Word) (hd : i.dest = none) (hc : i.csrAddr = none) (hs : i.storeWidth = none)
      (he : i ≠ .ecall) (hb : i ≠ .ebreak) : ExecCase i s (s.continueAt npc)
  /-- It stores and goes on. -/
  | stores (a : Word) (n : Width) (v : Word) (hd : i.dest = none) (hc : i.csrAddr = none) (hs : i.storeWidth = some n)
      (he : i ≠ .ecall) (hb : i ≠ .ebreak) : ExecCase i s ((s.memWrite a n v).continueAt s.snpc)
  /-- It swaps a mapped CSR and goes on. -/
  | swaps (rd : RegIdx) (a : CsrAddr) (c : Csr) (new : Word) (hd : i.dest = some rd) (hc : i.csrAddr = some a)
      (hm : csrOfAddr a = some c) (hs : i.storeWidth = none) (he : i ≠ .ecall) (hb : i ≠ .ebreak) :
      ExecCase i s (((s.setCsr c new).setReg rd (s.csr c)).continueAt s.snpc)
  /-- It names an unmapped CSR and halts. -/
  | unmapped (a : CsrAddr) (hc : i.csrAddr = some a) (hm : csrOfAddr a = none) (hs : i.storeWidth = none)
      (he : i ≠ .ecall) (hb : i ≠ .ebreak) : ExecCase i s (s.halt (.unsupportedCsr s.pc (encode i) a))
  /-- It is `ecall`. -/
  | traps (hi : i = .ecall) : ExecCase i s (s.takeTrap (s.reg s.params.selReg))
  /-- It is `ebreak`. -/
  | completes (hi : i = .ebreak) : ExecCase i s (s.halt (.completed s.pc))

/-- A load that answers a next state wrote its destination. -/
theorem State.load_next {rd rs1 : RegIdx} {imm : Word} {n : Width} {f : Word → Word} (h : s.load rd rs1 imm n f = .next t) :
    t = (s.setReg rd (f (s.memRead (s.effAddr rs1 imm) n))).continueAt s.snpc := by
  unfold State.load at h
  split at h
  · cases h; rfl
  · cases h

/-- A store that answers a next state wrote its bytes. -/
theorem State.store_next {rs1 rs2 : RegIdx} {imm : Word} {n : Width} (h : s.store rs1 rs2 imm n = .next t) :
    t = (s.memWrite (s.effAddr rs1 imm) n (s.reg rs2)).continueAt s.snpc := by
  unfold State.store at h
  split at h
  · cases h; rfl
  · cases h

/-- A CSR access answers the swap on a mapped address and the halt on an unmapped one. -/
theorem State.csrUpdate_next {inst : Word} {a : CsrAddr} {rd : RegIdx} {f : Word → Word}
    (h : s.csrUpdate inst a rd f = .next t) :
    (∃ c, csrOfAddr a = some c ∧ t = ((s.setCsr c (f (s.csr c))).setReg rd (s.csr c)).continueAt s.snpc) ∨
    (csrOfAddr a = none ∧ t = s.halt (.unsupportedCsr s.pc inst a)) := by
  unfold State.csrUpdate at h
  split at h
  · rename_i c hc
    refine .inl ⟨c, hc, ?_⟩
    cases h
    simp [State.snpc]
  · rename_i hc
    cases h; exact .inr ⟨hc, rfl⟩

/-- Everything `exec` can answer as a next state. -/
theorem exec_cases {i : Instr} (h : exec i s = .next t) : ExecCase i s t := by
  have csr : ∀ {inst a rd f}, i.dest = some rd → i.csrAddr = some a → i.storeWidth = none → i ≠ .ecall → i ≠ .ebreak →
      inst = encode i → s.csrUpdate inst a rd f = .next t → ExecCase i s t := by
    intro inst a rd f hd hc hs he hb hi h
    rcases State.csrUpdate_next h with ⟨c, hm, rfl⟩ | ⟨hm, rfl⟩
    · exact .swaps rd a c _ hd hc hm hs he hb
    · subst hi; exact .unmapped a hc hm hs he hb
  cases i with
  | lb rd rs1 imm | lh rd rs1 imm | lw rd rs1 imm | lbu rd rs1 imm | lhu rd rs1 imm =>
    rw [State.load_next h]; exact .writes rd _ _ rfl rfl rfl (by simp) (by simp)
  | sb rs1 rs2 imm | sh rs1 rs2 imm | sw rs1 rs2 imm =>
    rw [State.store_next h]; exact .stores _ _ _ rfl rfl rfl (by simp) (by simp)
  | beq rs1 rs2 imm | bne rs1 rs2 imm | blt rs1 rs2 imm | bge rs1 rs2 imm | bltu rs1 rs2 imm | bgeu rs1 rs2 imm =>
    cases h; exact .goes _ rfl rfl rfl (by simp) (by simp)
  | mret | fence _ _ _ _ _ | fenceI _ _ _ =>
    cases h; exact .goes _ rfl rfl rfl (by simp) (by simp)
  | csrrw _ _ _ | csrrs _ _ _ | csrrc _ _ _ | csrrwi _ _ _ | csrrsi _ _ _ | csrrci _ _ _ =>
    simp only [exec, execCsrrw, execCsrrs, execCsrrc, execCsrrwi, execCsrrsi, execCsrrci] at h
    exact csr rfl rfl rfl (by simp) (by simp) rfl h
  | ecall => cases h; exact .traps rfl
  | ebreak => cases h; exact .completes rfl
  | _ => cases h; exact .writes _ _ _ rfl rfl rfl (by simp) (by simp)

/-- The only fault of `exec` is a load's or a store's, at its effective address, when a byte of its width there is not plain (R50, R130). -/
theorem exec_fault {i : Instr} {f : Fault} (h : exec i s = .fault f) :
    ∃ rs1 imm n, i.dataAccess = some (rs1, imm, n) ∧ f = .outsidePlain (s.effAddr rs1 imm) ∧
      ¬ PlainRange s (s.effAddr rs1 imm) n.bytes := by
  have csr : ∀ {inst a rd g}, s.csrUpdate inst a rd g ≠ .fault f := by
    intro inst a rd g h
    unfold State.csrUpdate at h
    split at h <;> cases h
  have load : ∀ {rd rs1 imm n g}, s.load rd rs1 imm n g = .fault f →
      f = .outsidePlain (s.effAddr rs1 imm) ∧ ¬ PlainRange s (s.effAddr rs1 imm) n.bytes := by
    intro rd rs1 imm n g h
    unfold State.load at h
    split at h
    · cases h
    · rename_i hp
      cases h; exact ⟨rfl, fun hr => hp ((State.plainAccess_iff _ _).mpr hr)⟩
  have store : ∀ {rs1 rs2 imm n}, s.store rs1 rs2 imm n = .fault f →
      f = .outsidePlain (s.effAddr rs1 imm) ∧ ¬ PlainRange s (s.effAddr rs1 imm) n.bytes := by
    intro rs1 rs2 imm n h
    unfold State.store at h
    split at h
    · cases h
    · rename_i hp
      cases h; exact ⟨rfl, fun hr => hp ((State.plainAccess_iff _ _).mpr hr)⟩
  cases i with
  | lb _ _ _ | lh _ _ _ | lw _ _ _ | lbu _ _ _ | lhu _ _ _ => exact ⟨_, _, _, rfl, load h⟩
  | sb _ _ _ | sh _ _ _ | sw _ _ _ => exact ⟨_, _, _, rfl, store h⟩
  | csrrw _ _ _ | csrrs _ _ _ | csrrc _ _ _ | csrrwi _ _ _ | csrrsi _ _ _ | csrrci _ _ _ =>
    simp only [exec, execCsrrw, execCsrrs, execCsrrc, execCsrrwi, execCsrrsi, execCsrrci] at h
    exact absurd h csr
  | _ => cases h

/-- No instruction is refused. -/
theorem exec_ne_refused (i : Instr) (s : State) (r : Refusal) : exec i s ≠ .refused r := by
  intro h
  cases i with
  | lb _ _ _ | lh _ _ _ | lw _ _ _ | lbu _ _ _ | lhu _ _ _ =>
    simp only [exec, execLb, execLh, execLw, execLbu, execLhu, State.load] at h
    split at h <;> cases h
  | sb _ _ _ | sh _ _ _ | sw _ _ _ =>
    simp only [exec, execSb, execSh, execSw, State.store] at h
    split at h <;> cases h
  | csrrw _ _ _ | csrrs _ _ _ | csrrc _ _ _ | csrrwi _ _ _ | csrrsi _ _ _ | csrrci _ _ _ =>
    simp only [exec, execCsrrw, execCsrrs, execCsrrc, execCsrrwi, execCsrrsi, execCsrrci, State.csrUpdate] at h
    split at h <;> cases h
  | _ => cases h

/-! ### What `step` can answer -/

/-- A step of a running core: the fault of an unplain fetch, the halt of an unmatched word, or `exec` of the decoded instruction. -/
theorem step_running (h : s.status = .running) :
    step s = if s.plainAccess s.pc .word then
      (match decodeWord s.params.groups s.fetchWord with
        | some i => exec i s
        | none => .next (s.halt (.decodeError s.pc s.fetchWord)))
      else .fault (.outsidePlain s.pc) :=
  (show step s = runFetched s by simp only [step, h]).trans rfl

/-- A halted core has no step (R37). -/
theorem step_halted {r : HaltReason} (h : s.status = .halted r) : step s = .fault .notRunning := by
  simp only [step, h]

/-- Everything `step` can answer as a next state. -/
theorem step_cases (h : step s = .next t) :
    s.status = .running ∧ s.plainAccess s.pc .word = true ∧
    ((decodeWord s.params.groups s.fetchWord = none ∧ t = s.halt (.decodeError s.pc s.fetchWord)) ∨
     ∃ i, decodeWord s.params.groups s.fetchWord = some i ∧ exec i s = .next t) := by
  cases hs : s.status with
  | halted r => rw [step_halted hs] at h; cases h
  | running =>
    rw [step_running hs] at h
    split at h
    · rename_i hp
      refine ⟨rfl, hp, ?_⟩
      split at h
      · rename_i i hi; exact .inr ⟨i, hi, h⟩
      · rename_i hn; cases h; exact .inl ⟨hn, rfl⟩
    · cases h

/-- Everything `step` can answer as a fault: a halted core, an unplain fetch, or the decoded instruction's own. -/
theorem step_fault {f : Fault} (h : step s = .fault f) :
    (∃ r, s.status = .halted r ∧ f = .notRunning) ∨
    (s.status = .running ∧ f = .outsidePlain s.pc ∧ ¬ PlainRange s s.pc 4) ∨
    (s.status = .running ∧ PlainRange s s.pc 4 ∧ ∃ i, decodeWord s.params.groups s.fetchWord = some i ∧ exec i s = .fault f) := by
  have hpl := State.plainAccess_iff (s := s) s.pc .word
  cases hs : s.status with
  | halted r => rw [step_halted hs] at h; cases h; exact .inl ⟨r, rfl, rfl⟩
  | running =>
    rw [step_running hs] at h
    split at h
    · rename_i hp
      split at h
      · rename_i i hi; exact .inr (.inr ⟨rfl, hpl.mp hp, i, hi, h⟩)
      · cases h
    · rename_i hp
      cases h; exact .inr (.inl ⟨rfl, rfl, fun hr => hp (hpl.mpr hr)⟩)

/-- The bytes of `Fetches` are the fetched word's (R45). -/
theorem Fetches.decodeWord {i : Instr} (h : Fetches s i) : decodeWord s.params.groups s.fetchWord = some i := by
  have h3 := h.2.2
  simp only [decode] at h3
  split at h3
  · rename_i j hj; cases h3; exact hj
  · cases h3

end Sys2Proof.Machine
end

