-- ==== Sys2Proof/Laws/PerInstr.lean ====
section
/-! SUPPORT. Per-instruction family EncodeMatches: the word of an instruction is accepted by a row of the pattern table of the instruction's group,
and that row's action rebuilds the instruction where it is well-formed (R69 to R71). -/

namespace Sys2Proof.Laws

/-- The word of the instruction is accepted by a row of its group, which rebuilds it where its immediate is encodable. -/
def EncodeMatches.Statement (i : Instr) : Prop :=
  ∃ r ∈ patternTable, r.group = i.group ∧ r.accepts (encode i) = true ∧ (i.wellFormed = true → r.build (encode i) = i)

/-- A row whose mask fixes the opcode accepts a word with that opcode. -/
theorem accepts_op {r : Row} {w : Word} {op : BitVec 7} (hm : r.mask = 0x0000007F#32) (hp : r.pattern &&& 0x0000007F#32 = r.pattern)
    (ho : r.pattern.extractLsb' 0 7 = op) (hw : w.extractLsb' 0 7 = op) : r.accepts w = true := by
  simp only [Row.accepts, beq_iff_eq, hm]
  exact (and_mask_op w r.pattern hp).mpr (hw.trans ho.symm)

/-- A row whose mask fixes opcode and funct3 accepts a word with both. -/
theorem accepts_op_f3 {r : Row} {w : Word} {op : BitVec 7} {f3 : BitVec 3} (hm : r.mask = 0x0000707F#32)
    (hp : r.pattern &&& 0x0000707F#32 = r.pattern) (ho : r.pattern.extractLsb' 0 7 = op) (h3 : r.pattern.extractLsb' 12 3 = f3)
    (hw : w.extractLsb' 0 7 = op) (hw3 : w.extractLsb' 12 3 = f3) : r.accepts w = true := by
  simp only [Row.accepts, beq_iff_eq, hm]
  exact (and_mask_op_f3 w r.pattern hp).mpr ⟨hw.trans ho.symm, hw3.trans h3.symm⟩

/-- A row whose mask fixes opcode, funct3 and funct7 accepts a word with the three. -/
theorem accepts_op_f3_f7 {r : Row} {w : Word} {op : BitVec 7} {f3 : BitVec 3} {f7 : BitVec 7} (hm : r.mask = 0xFE00707F#32)
    (hp : r.pattern &&& 0xFE00707F#32 = r.pattern) (ho : r.pattern.extractLsb' 0 7 = op) (h3 : r.pattern.extractLsb' 12 3 = f3)
    (h7 : r.pattern.extractLsb' 25 7 = f7) (hw : w.extractLsb' 0 7 = op) (hw3 : w.extractLsb' 12 3 = f3)
    (hw7 : w.extractLsb' 25 7 = f7) : r.accepts w = true := by
  simp only [Row.accepts, beq_iff_eq, hm]
  exact (and_mask_op_f3_f7 w r.pattern hp).mpr ⟨⟨hw.trans ho.symm, hw3.trans h3.symm⟩, hw7.trans h7.symm⟩

/-- A row of the table, by its place. -/
theorem row_mem {k : Nat} {r : Row} (h : patternTable[k]? = some r) : r ∈ patternTable := List.mem_of_getElem? h

theorem EncodeMatches.lui (rd : RegIdx) (imm : Word) : EncodeMatches.Statement (.lui rd imm) := by
  have h := encodeU_fields rd 0x37#7 imm
  refine ⟨_, row_mem (k := 0) rfl, rfl, accepts_op rfl rfl rfl h.1, fun hw => ?_⟩
  rw [Instr.lui.injEq]
  exact ⟨h.2, immU_encodeU rd 0x37#7 hw⟩

theorem EncodeMatches.auipc (rd : RegIdx) (imm : Word) : EncodeMatches.Statement (.auipc rd imm) := by
  have h := encodeU_fields rd 0x17#7 imm
  refine ⟨_, row_mem (k := 1) rfl, rfl, accepts_op rfl rfl rfl h.1, fun hw => ?_⟩
  rw [Instr.auipc.injEq]
  exact ⟨h.2, immU_encodeU rd 0x17#7 hw⟩

theorem EncodeMatches.jal (rd : RegIdx) (imm : Word) : EncodeMatches.Statement (.jal rd imm) := by
  have h := encodeJ_fields rd 0x6F#7 imm
  refine ⟨_, row_mem (k := 2) rfl, rfl, accepts_op rfl rfl rfl h.1, fun hw => ?_⟩
  rw [Instr.jal.injEq]
  exact ⟨h.2, immJ_encodeJ rd 0x6F#7 hw⟩

theorem EncodeMatches.jalr (rd rs1 : RegIdx) (imm : Word) : EncodeMatches.Statement (.jalr rd rs1 imm) := by
  have h := encodeI_fields rs1 rd 0#3 0x67#7 imm
  refine ⟨_, row_mem (k := 3) rfl, rfl, accepts_op_f3 rfl rfl rfl rfl h.1 h.2.2.1, fun hw => ?_⟩
  rw [Instr.jalr.injEq]
  exact ⟨h.2.1, h.2.2.2.1, immI_encodeI rs1 rd 0#3 0x67#7 hw⟩

theorem EncodeMatches.beq (rs1 rs2 : RegIdx) (imm : Word) : EncodeMatches.Statement (.beq rs1 rs2 imm) := by
  have h := encodeB_fields rs2 rs1 0#3 0x63#7 imm
  refine ⟨_, row_mem (k := 4) rfl, rfl, accepts_op_f3 rfl rfl rfl rfl h.1 h.2.1, fun hw => ?_⟩
  rw [Instr.beq.injEq]
  exact ⟨h.2.2.1, h.2.2.2, immB_encodeB rs2 rs1 0#3 0x63#7 hw⟩

theorem EncodeMatches.bne (rs1 rs2 : RegIdx) (imm : Word) : EncodeMatches.Statement (.bne rs1 rs2 imm) := by
  have h := encodeB_fields rs2 rs1 1#3 0x63#7 imm
  refine ⟨_, row_mem (k := 5) rfl, rfl, accepts_op_f3 rfl rfl rfl rfl h.1 h.2.1, fun hw => ?_⟩
  rw [Instr.bne.injEq]
  exact ⟨h.2.2.1, h.2.2.2, immB_encodeB rs2 rs1 1#3 0x63#7 hw⟩

theorem EncodeMatches.blt (rs1 rs2 : RegIdx) (imm : Word) : EncodeMatches.Statement (.blt rs1 rs2 imm) := by
  have h := encodeB_fields rs2 rs1 4#3 0x63#7 imm
  refine ⟨_, row_mem (k := 6) rfl, rfl, accepts_op_f3 rfl rfl rfl rfl h.1 h.2.1, fun hw => ?_⟩
  rw [Instr.blt.injEq]
  exact ⟨h.2.2.1, h.2.2.2, immB_encodeB rs2 rs1 4#3 0x63#7 hw⟩

theorem EncodeMatches.bge (rs1 rs2 : RegIdx) (imm : Word) : EncodeMatches.Statement (.bge rs1 rs2 imm) := by
  have h := encodeB_fields rs2 rs1 5#3 0x63#7 imm
  refine ⟨_, row_mem (k := 7) rfl, rfl, accepts_op_f3 rfl rfl rfl rfl h.1 h.2.1, fun hw => ?_⟩
  rw [Instr.bge.injEq]
  exact ⟨h.2.2.1, h.2.2.2, immB_encodeB rs2 rs1 5#3 0x63#7 hw⟩

theorem EncodeMatches.bltu (rs1 rs2 : RegIdx) (imm : Word) : EncodeMatches.Statement (.bltu rs1 rs2 imm) := by
  have h := encodeB_fields rs2 rs1 6#3 0x63#7 imm
  refine ⟨_, row_mem (k := 8) rfl, rfl, accepts_op_f3 rfl rfl rfl rfl h.1 h.2.1, fun hw => ?_⟩
  rw [Instr.bltu.injEq]
  exact ⟨h.2.2.1, h.2.2.2, immB_encodeB rs2 rs1 6#3 0x63#7 hw⟩

theorem EncodeMatches.bgeu (rs1 rs2 : RegIdx) (imm : Word) : EncodeMatches.Statement (.bgeu rs1 rs2 imm) := by
  have h := encodeB_fields rs2 rs1 7#3 0x63#7 imm
  refine ⟨_, row_mem (k := 9) rfl, rfl, accepts_op_f3 rfl rfl rfl rfl h.1 h.2.1, fun hw => ?_⟩
  rw [Instr.bgeu.injEq]
  exact ⟨h.2.2.1, h.2.2.2, immB_encodeB rs2 rs1 7#3 0x63#7 hw⟩

theorem EncodeMatches.lb (rd rs1 : RegIdx) (imm : Word) : EncodeMatches.Statement (.lb rd rs1 imm) := by
  have h := encodeI_fields rs1 rd 0#3 0x03#7 imm
  refine ⟨_, row_mem (k := 10) rfl, rfl, accepts_op_f3 rfl rfl rfl rfl h.1 h.2.2.1, fun hw => ?_⟩
  rw [Instr.lb.injEq]
  exact ⟨h.2.1, h.2.2.2.1, immI_encodeI rs1 rd 0#3 0x03#7 hw⟩

theorem EncodeMatches.lh (rd rs1 : RegIdx) (imm : Word) : EncodeMatches.Statement (.lh rd rs1 imm) := by
  have h := encodeI_fields rs1 rd 1#3 0x03#7 imm
  refine ⟨_, row_mem (k := 11) rfl, rfl, accepts_op_f3 rfl rfl rfl rfl h.1 h.2.2.1, fun hw => ?_⟩
  rw [Instr.lh.injEq]
  exact ⟨h.2.1, h.2.2.2.1, immI_encodeI rs1 rd 1#3 0x03#7 hw⟩

theorem EncodeMatches.lw (rd rs1 : RegIdx) (imm : Word) : EncodeMatches.Statement (.lw rd rs1 imm) := by
  have h := encodeI_fields rs1 rd 2#3 0x03#7 imm
  refine ⟨_, row_mem (k := 12) rfl, rfl, accepts_op_f3 rfl rfl rfl rfl h.1 h.2.2.1, fun hw => ?_⟩
  rw [Instr.lw.injEq]
  exact ⟨h.2.1, h.2.2.2.1, immI_encodeI rs1 rd 2#3 0x03#7 hw⟩

theorem EncodeMatches.lbu (rd rs1 : RegIdx) (imm : Word) : EncodeMatches.Statement (.lbu rd rs1 imm) := by
  have h := encodeI_fields rs1 rd 4#3 0x03#7 imm
  refine ⟨_, row_mem (k := 13) rfl, rfl, accepts_op_f3 rfl rfl rfl rfl h.1 h.2.2.1, fun hw => ?_⟩
  rw [Instr.lbu.injEq]
  exact ⟨h.2.1, h.2.2.2.1, immI_encodeI rs1 rd 4#3 0x03#7 hw⟩

theorem EncodeMatches.lhu (rd rs1 : RegIdx) (imm : Word) : EncodeMatches.Statement (.lhu rd rs1 imm) := by
  have h := encodeI_fields rs1 rd 5#3 0x03#7 imm
  refine ⟨_, row_mem (k := 14) rfl, rfl, accepts_op_f3 rfl rfl rfl rfl h.1 h.2.2.1, fun hw => ?_⟩
  rw [Instr.lhu.injEq]
  exact ⟨h.2.1, h.2.2.2.1, immI_encodeI rs1 rd 5#3 0x03#7 hw⟩

theorem EncodeMatches.sb (rs1 rs2 : RegIdx) (imm : Word) : EncodeMatches.Statement (.sb rs1 rs2 imm) := by
  have h := encodeS_fields rs2 rs1 0#3 0x23#7 imm
  refine ⟨_, row_mem (k := 15) rfl, rfl, accepts_op_f3 rfl rfl rfl rfl h.1 h.2.1, fun hw => ?_⟩
  rw [Instr.sb.injEq]
  exact ⟨h.2.2.1, h.2.2.2, immS_encodeS rs2 rs1 0#3 0x23#7 hw⟩

theorem EncodeMatches.sh (rs1 rs2 : RegIdx) (imm : Word) : EncodeMatches.Statement (.sh rs1 rs2 imm) := by
  have h := encodeS_fields rs2 rs1 1#3 0x23#7 imm
  refine ⟨_, row_mem (k := 16) rfl, rfl, accepts_op_f3 rfl rfl rfl rfl h.1 h.2.1, fun hw => ?_⟩
  rw [Instr.sh.injEq]
  exact ⟨h.2.2.1, h.2.2.2, immS_encodeS rs2 rs1 1#3 0x23#7 hw⟩

theorem EncodeMatches.sw (rs1 rs2 : RegIdx) (imm : Word) : EncodeMatches.Statement (.sw rs1 rs2 imm) := by
  have h := encodeS_fields rs2 rs1 2#3 0x23#7 imm
  refine ⟨_, row_mem (k := 17) rfl, rfl, accepts_op_f3 rfl rfl rfl rfl h.1 h.2.1, fun hw => ?_⟩
  rw [Instr.sw.injEq]
  exact ⟨h.2.2.1, h.2.2.2, immS_encodeS rs2 rs1 2#3 0x23#7 hw⟩

theorem EncodeMatches.addi (rd rs1 : RegIdx) (imm : Word) : EncodeMatches.Statement (.addi rd rs1 imm) := by
  have h := encodeI_fields rs1 rd 0#3 0x13#7 imm
  refine ⟨_, row_mem (k := 18) rfl, rfl, accepts_op_f3 rfl rfl rfl rfl h.1 h.2.2.1, fun hw => ?_⟩
  rw [Instr.addi.injEq]
  exact ⟨h.2.1, h.2.2.2.1, immI_encodeI rs1 rd 0#3 0x13#7 hw⟩

theorem EncodeMatches.slti (rd rs1 : RegIdx) (imm : Word) : EncodeMatches.Statement (.slti rd rs1 imm) := by
  have h := encodeI_fields rs1 rd 2#3 0x13#7 imm
  refine ⟨_, row_mem (k := 19) rfl, rfl, accepts_op_f3 rfl rfl rfl rfl h.1 h.2.2.1, fun hw => ?_⟩
  rw [Instr.slti.injEq]
  exact ⟨h.2.1, h.2.2.2.1, immI_encodeI rs1 rd 2#3 0x13#7 hw⟩

theorem EncodeMatches.sltiu (rd rs1 : RegIdx) (imm : Word) : EncodeMatches.Statement (.sltiu rd rs1 imm) := by
  have h := encodeI_fields rs1 rd 3#3 0x13#7 imm
  refine ⟨_, row_mem (k := 20) rfl, rfl, accepts_op_f3 rfl rfl rfl rfl h.1 h.2.2.1, fun hw => ?_⟩
  rw [Instr.sltiu.injEq]
  exact ⟨h.2.1, h.2.2.2.1, immI_encodeI rs1 rd 3#3 0x13#7 hw⟩

theorem EncodeMatches.xori (rd rs1 : RegIdx) (imm : Word) : EncodeMatches.Statement (.xori rd rs1 imm) := by
  have h := encodeI_fields rs1 rd 4#3 0x13#7 imm
  refine ⟨_, row_mem (k := 21) rfl, rfl, accepts_op_f3 rfl rfl rfl rfl h.1 h.2.2.1, fun hw => ?_⟩
  rw [Instr.xori.injEq]
  exact ⟨h.2.1, h.2.2.2.1, immI_encodeI rs1 rd 4#3 0x13#7 hw⟩

theorem EncodeMatches.ori (rd rs1 : RegIdx) (imm : Word) : EncodeMatches.Statement (.ori rd rs1 imm) := by
  have h := encodeI_fields rs1 rd 6#3 0x13#7 imm
  refine ⟨_, row_mem (k := 22) rfl, rfl, accepts_op_f3 rfl rfl rfl rfl h.1 h.2.2.1, fun hw => ?_⟩
  rw [Instr.ori.injEq]
  exact ⟨h.2.1, h.2.2.2.1, immI_encodeI rs1 rd 6#3 0x13#7 hw⟩

theorem EncodeMatches.andi (rd rs1 : RegIdx) (imm : Word) : EncodeMatches.Statement (.andi rd rs1 imm) := by
  have h := encodeI_fields rs1 rd 7#3 0x13#7 imm
  refine ⟨_, row_mem (k := 23) rfl, rfl, accepts_op_f3 rfl rfl rfl rfl h.1 h.2.2.1, fun hw => ?_⟩
  rw [Instr.andi.injEq]
  exact ⟨h.2.1, h.2.2.2.1, immI_encodeI rs1 rd 7#3 0x13#7 hw⟩

theorem EncodeMatches.slli (rd rs1 : RegIdx) (shamt : BitVec 5) : EncodeMatches.Statement (.slli rd rs1 shamt) := by
  have h := encodeR_fields 0#7 shamt rs1 rd 1#3 0x13#7
  refine ⟨_, row_mem (k := 24) rfl, rfl, accepts_op_f3_f7 rfl rfl rfl rfl rfl h.1 h.2.2.1 h.2.2.2.2.2, fun _ => ?_⟩
  rw [Instr.slli.injEq]
  exact ⟨h.2.1, h.2.2.2.1, h.2.2.2.2.1⟩

theorem EncodeMatches.srli (rd rs1 : RegIdx) (shamt : BitVec 5) : EncodeMatches.Statement (.srli rd rs1 shamt) := by
  have h := encodeR_fields 0#7 shamt rs1 rd 5#3 0x13#7
  refine ⟨_, row_mem (k := 25) rfl, rfl, accepts_op_f3_f7 rfl rfl rfl rfl rfl h.1 h.2.2.1 h.2.2.2.2.2, fun _ => ?_⟩
  rw [Instr.srli.injEq]
  exact ⟨h.2.1, h.2.2.2.1, h.2.2.2.2.1⟩

theorem EncodeMatches.srai (rd rs1 : RegIdx) (shamt : BitVec 5) : EncodeMatches.Statement (.srai rd rs1 shamt) := by
  have h := encodeR_fields 32#7 shamt rs1 rd 5#3 0x13#7
  refine ⟨_, row_mem (k := 26) rfl, rfl, accepts_op_f3_f7 rfl rfl rfl rfl rfl h.1 h.2.2.1 h.2.2.2.2.2, fun _ => ?_⟩
  rw [Instr.srai.injEq]
  exact ⟨h.2.1, h.2.2.2.1, h.2.2.2.2.1⟩

theorem EncodeMatches.add (rd rs1 rs2 : RegIdx) : EncodeMatches.Statement (.add rd rs1 rs2) := by
  have h := encodeR_fields 0#7 rs2 rs1 rd 0#3 0x33#7
  refine ⟨_, row_mem (k := 27) rfl, rfl, accepts_op_f3_f7 rfl rfl rfl rfl rfl h.1 h.2.2.1 h.2.2.2.2.2, fun _ => ?_⟩
  rw [Instr.add.injEq]
  exact ⟨h.2.1, h.2.2.2.1, h.2.2.2.2.1⟩

theorem EncodeMatches.sub (rd rs1 rs2 : RegIdx) : EncodeMatches.Statement (.sub rd rs1 rs2) := by
  have h := encodeR_fields 32#7 rs2 rs1 rd 0#3 0x33#7
  refine ⟨_, row_mem (k := 28) rfl, rfl, accepts_op_f3_f7 rfl rfl rfl rfl rfl h.1 h.2.2.1 h.2.2.2.2.2, fun _ => ?_⟩
  rw [Instr.sub.injEq]
  exact ⟨h.2.1, h.2.2.2.1, h.2.2.2.2.1⟩

theorem EncodeMatches.sll (rd rs1 rs2 : RegIdx) : EncodeMatches.Statement (.sll rd rs1 rs2) := by
  have h := encodeR_fields 0#7 rs2 rs1 rd 1#3 0x33#7
  refine ⟨_, row_mem (k := 29) rfl, rfl, accepts_op_f3_f7 rfl rfl rfl rfl rfl h.1 h.2.2.1 h.2.2.2.2.2, fun _ => ?_⟩
  rw [Instr.sll.injEq]
  exact ⟨h.2.1, h.2.2.2.1, h.2.2.2.2.1⟩

theorem EncodeMatches.slt (rd rs1 rs2 : RegIdx) : EncodeMatches.Statement (.slt rd rs1 rs2) := by
  have h := encodeR_fields 0#7 rs2 rs1 rd 2#3 0x33#7
  refine ⟨_, row_mem (k := 30) rfl, rfl, accepts_op_f3_f7 rfl rfl rfl rfl rfl h.1 h.2.2.1 h.2.2.2.2.2, fun _ => ?_⟩
  rw [Instr.slt.injEq]
  exact ⟨h.2.1, h.2.2.2.1, h.2.2.2.2.1⟩

theorem EncodeMatches.sltu (rd rs1 rs2 : RegIdx) : EncodeMatches.Statement (.sltu rd rs1 rs2) := by
  have h := encodeR_fields 0#7 rs2 rs1 rd 3#3 0x33#7
  refine ⟨_, row_mem (k := 31) rfl, rfl, accepts_op_f3_f7 rfl rfl rfl rfl rfl h.1 h.2.2.1 h.2.2.2.2.2, fun _ => ?_⟩
  rw [Instr.sltu.injEq]
  exact ⟨h.2.1, h.2.2.2.1, h.2.2.2.2.1⟩

theorem EncodeMatches.xor (rd rs1 rs2 : RegIdx) : EncodeMatches.Statement (.xor rd rs1 rs2) := by
  have h := encodeR_fields 0#7 rs2 rs1 rd 4#3 0x33#7
  refine ⟨_, row_mem (k := 32) rfl, rfl, accepts_op_f3_f7 rfl rfl rfl rfl rfl h.1 h.2.2.1 h.2.2.2.2.2, fun _ => ?_⟩
  rw [Instr.xor.injEq]
  exact ⟨h.2.1, h.2.2.2.1, h.2.2.2.2.1⟩

theorem EncodeMatches.srl (rd rs1 rs2 : RegIdx) : EncodeMatches.Statement (.srl rd rs1 rs2) := by
  have h := encodeR_fields 0#7 rs2 rs1 rd 5#3 0x33#7
  refine ⟨_, row_mem (k := 33) rfl, rfl, accepts_op_f3_f7 rfl rfl rfl rfl rfl h.1 h.2.2.1 h.2.2.2.2.2, fun _ => ?_⟩
  rw [Instr.srl.injEq]
  exact ⟨h.2.1, h.2.2.2.1, h.2.2.2.2.1⟩

theorem EncodeMatches.sra (rd rs1 rs2 : RegIdx) : EncodeMatches.Statement (.sra rd rs1 rs2) := by
  have h := encodeR_fields 32#7 rs2 rs1 rd 5#3 0x33#7
  refine ⟨_, row_mem (k := 34) rfl, rfl, accepts_op_f3_f7 rfl rfl rfl rfl rfl h.1 h.2.2.1 h.2.2.2.2.2, fun _ => ?_⟩
  rw [Instr.sra.injEq]
  exact ⟨h.2.1, h.2.2.2.1, h.2.2.2.2.1⟩

theorem EncodeMatches.or (rd rs1 rs2 : RegIdx) : EncodeMatches.Statement (.or rd rs1 rs2) := by
  have h := encodeR_fields 0#7 rs2 rs1 rd 6#3 0x33#7
  refine ⟨_, row_mem (k := 35) rfl, rfl, accepts_op_f3_f7 rfl rfl rfl rfl rfl h.1 h.2.2.1 h.2.2.2.2.2, fun _ => ?_⟩
  rw [Instr.or.injEq]
  exact ⟨h.2.1, h.2.2.2.1, h.2.2.2.2.1⟩

theorem EncodeMatches.and (rd rs1 rs2 : RegIdx) : EncodeMatches.Statement (.and rd rs1 rs2) := by
  have h := encodeR_fields 0#7 rs2 rs1 rd 7#3 0x33#7
  refine ⟨_, row_mem (k := 36) rfl, rfl, accepts_op_f3_f7 rfl rfl rfl rfl rfl h.1 h.2.2.1 h.2.2.2.2.2, fun _ => ?_⟩
  rw [Instr.and.injEq]
  exact ⟨h.2.1, h.2.2.2.1, h.2.2.2.2.1⟩

theorem EncodeMatches.ecall : EncodeMatches.Statement .ecall :=
  ⟨_, row_mem (k := 37) rfl, rfl, rfl, fun _ => rfl⟩

theorem EncodeMatches.mret : EncodeMatches.Statement .mret :=
  ⟨_, row_mem (k := 38) rfl, rfl, rfl, fun _ => rfl⟩

theorem EncodeMatches.csrrw (rd rs1 : RegIdx) (csr : CsrAddr) : EncodeMatches.Statement (.csrrw rd rs1 csr) := by
  have h := encodeCsr_fields rs1 rd 1#3 csr
  refine ⟨_, row_mem (k := 39) rfl, rfl, accepts_op_f3 rfl rfl rfl rfl h.1 h.2.2.1, fun _ => ?_⟩
  rw [Instr.csrrw.injEq]
  exact ⟨h.2.1, h.2.2.2.1, h.2.2.2.2⟩

theorem EncodeMatches.csrrs (rd rs1 : RegIdx) (csr : CsrAddr) : EncodeMatches.Statement (.csrrs rd rs1 csr) := by
  have h := encodeCsr_fields rs1 rd 2#3 csr
  refine ⟨_, row_mem (k := 40) rfl, rfl, accepts_op_f3 rfl rfl rfl rfl h.1 h.2.2.1, fun _ => ?_⟩
  rw [Instr.csrrs.injEq]
  exact ⟨h.2.1, h.2.2.2.1, h.2.2.2.2⟩

theorem EncodeMatches.csrrc (rd rs1 : RegIdx) (csr : CsrAddr) : EncodeMatches.Statement (.csrrc rd rs1 csr) := by
  have h := encodeCsr_fields rs1 rd 3#3 csr
  refine ⟨_, row_mem (k := 41) rfl, rfl, accepts_op_f3 rfl rfl rfl rfl h.1 h.2.2.1, fun _ => ?_⟩
  rw [Instr.csrrc.injEq]
  exact ⟨h.2.1, h.2.2.2.1, h.2.2.2.2⟩

theorem EncodeMatches.csrrwi (rd : RegIdx) (uimm : BitVec 5) (csr : CsrAddr) : EncodeMatches.Statement (.csrrwi rd uimm csr) := by
  have h := encodeCsr_fields uimm rd 5#3 csr
  refine ⟨_, row_mem (k := 42) rfl, rfl, accepts_op_f3 rfl rfl rfl rfl h.1 h.2.2.1, fun _ => ?_⟩
  rw [Instr.csrrwi.injEq]
  exact ⟨h.2.1, h.2.2.2.1, h.2.2.2.2⟩

theorem EncodeMatches.csrrsi (rd : RegIdx) (uimm : BitVec 5) (csr : CsrAddr) : EncodeMatches.Statement (.csrrsi rd uimm csr) := by
  have h := encodeCsr_fields uimm rd 6#3 csr
  refine ⟨_, row_mem (k := 43) rfl, rfl, accepts_op_f3 rfl rfl rfl rfl h.1 h.2.2.1, fun _ => ?_⟩
  rw [Instr.csrrsi.injEq]
  exact ⟨h.2.1, h.2.2.2.1, h.2.2.2.2⟩

theorem EncodeMatches.csrrci (rd : RegIdx) (uimm : BitVec 5) (csr : CsrAddr) : EncodeMatches.Statement (.csrrci rd uimm csr) := by
  have h := encodeCsr_fields uimm rd 7#3 csr
  refine ⟨_, row_mem (k := 44) rfl, rfl, accepts_op_f3 rfl rfl rfl rfl h.1 h.2.2.1, fun _ => ?_⟩
  rw [Instr.csrrci.injEq]
  exact ⟨h.2.1, h.2.2.2.1, h.2.2.2.2⟩

theorem EncodeMatches.ebreak : EncodeMatches.Statement .ebreak :=
  ⟨_, row_mem (k := 45) rfl, rfl, rfl, fun _ => rfl⟩

theorem EncodeMatches.fence (fm pred succ : BitVec 4) (rs1 rd : RegIdx) : EncodeMatches.Statement (.fence fm pred succ rs1 rd) := by
  refine ⟨_, row_mem (k := 46) rfl, rfl, accepts_op_f3 (op := 0x0F#7) (f3 := 0#3) rfl rfl rfl rfl ?_ ?_, fun _ => ?_⟩
  · apply BitVec.eq_of_getLsbD_eq; intro i hi
    simp only [BitVec.getLsbD_extractLsb', encode_fence_getLsbD]
    interval_cases i <;> rfl
  · apply BitVec.eq_of_getLsbD_eq; intro i hi
    simp only [BitVec.getLsbD_extractLsb', encode_fence_getLsbD]
    interval_cases i <;> rfl
  · simp only [Instr.fence.injEq]
    refine ⟨?_, ?_, ?_, ?_, ?_⟩ <;> apply BitVec.eq_of_getLsbD_eq <;> intro i hi <;>
      simp only [fmOf, predOf, succOf, rs1Of, rdOf, BitVec.getLsbD_extractLsb', encode_fence_getLsbD] <;>
      interval_cases i <;> rfl

theorem EncodeMatches.fenceI (rd rs1 : RegIdx) (imm : Word) : EncodeMatches.Statement (.fenceI rd rs1 imm) := by
  have h := encodeI_fields rs1 rd 1#3 0x0F#7 imm
  refine ⟨_, row_mem (k := 47) rfl, rfl, accepts_op_f3 rfl rfl rfl rfl h.1 h.2.2.1, fun hw => ?_⟩
  rw [Instr.fenceI.injEq]
  exact ⟨h.2.1, h.2.2.2.1, immI_encodeI rs1 rd 1#3 0x0F#7 hw⟩

theorem EncodeMatches.mul (rd rs1 rs2 : RegIdx) : EncodeMatches.Statement (.mul rd rs1 rs2) := by
  have h := encodeR_fields 1#7 rs2 rs1 rd 0#3 0x33#7
  refine ⟨_, row_mem (k := 48) rfl, rfl, accepts_op_f3_f7 rfl rfl rfl rfl rfl h.1 h.2.2.1 h.2.2.2.2.2, fun _ => ?_⟩
  rw [Instr.mul.injEq]
  exact ⟨h.2.1, h.2.2.2.1, h.2.2.2.2.1⟩

theorem EncodeMatches.mulh (rd rs1 rs2 : RegIdx) : EncodeMatches.Statement (.mulh rd rs1 rs2) := by
  have h := encodeR_fields 1#7 rs2 rs1 rd 1#3 0x33#7
  refine ⟨_, row_mem (k := 49) rfl, rfl, accepts_op_f3_f7 rfl rfl rfl rfl rfl h.1 h.2.2.1 h.2.2.2.2.2, fun _ => ?_⟩
  rw [Instr.mulh.injEq]
  exact ⟨h.2.1, h.2.2.2.1, h.2.2.2.2.1⟩

theorem EncodeMatches.mulhsu (rd rs1 rs2 : RegIdx) : EncodeMatches.Statement (.mulhsu rd rs1 rs2) := by
  have h := encodeR_fields 1#7 rs2 rs1 rd 2#3 0x33#7
  refine ⟨_, row_mem (k := 50) rfl, rfl, accepts_op_f3_f7 rfl rfl rfl rfl rfl h.1 h.2.2.1 h.2.2.2.2.2, fun _ => ?_⟩
  rw [Instr.mulhsu.injEq]
  exact ⟨h.2.1, h.2.2.2.1, h.2.2.2.2.1⟩

theorem EncodeMatches.mulhu (rd rs1 rs2 : RegIdx) : EncodeMatches.Statement (.mulhu rd rs1 rs2) := by
  have h := encodeR_fields 1#7 rs2 rs1 rd 3#3 0x33#7
  refine ⟨_, row_mem (k := 51) rfl, rfl, accepts_op_f3_f7 rfl rfl rfl rfl rfl h.1 h.2.2.1 h.2.2.2.2.2, fun _ => ?_⟩
  rw [Instr.mulhu.injEq]
  exact ⟨h.2.1, h.2.2.2.1, h.2.2.2.2.1⟩

theorem EncodeMatches.div (rd rs1 rs2 : RegIdx) : EncodeMatches.Statement (.div rd rs1 rs2) := by
  have h := encodeR_fields 1#7 rs2 rs1 rd 4#3 0x33#7
  refine ⟨_, row_mem (k := 52) rfl, rfl, accepts_op_f3_f7 rfl rfl rfl rfl rfl h.1 h.2.2.1 h.2.2.2.2.2, fun _ => ?_⟩
  rw [Instr.div.injEq]
  exact ⟨h.2.1, h.2.2.2.1, h.2.2.2.2.1⟩

theorem EncodeMatches.divu (rd rs1 rs2 : RegIdx) : EncodeMatches.Statement (.divu rd rs1 rs2) := by
  have h := encodeR_fields 1#7 rs2 rs1 rd 5#3 0x33#7
  refine ⟨_, row_mem (k := 53) rfl, rfl, accepts_op_f3_f7 rfl rfl rfl rfl rfl h.1 h.2.2.1 h.2.2.2.2.2, fun _ => ?_⟩
  rw [Instr.divu.injEq]
  exact ⟨h.2.1, h.2.2.2.1, h.2.2.2.2.1⟩

theorem EncodeMatches.rem (rd rs1 rs2 : RegIdx) : EncodeMatches.Statement (.rem rd rs1 rs2) := by
  have h := encodeR_fields 1#7 rs2 rs1 rd 6#3 0x33#7
  refine ⟨_, row_mem (k := 54) rfl, rfl, accepts_op_f3_f7 rfl rfl rfl rfl rfl h.1 h.2.2.1 h.2.2.2.2.2, fun _ => ?_⟩
  rw [Instr.rem.injEq]
  exact ⟨h.2.1, h.2.2.2.1, h.2.2.2.2.1⟩

theorem EncodeMatches.remu (rd rs1 rs2 : RegIdx) : EncodeMatches.Statement (.remu rd rs1 rs2) := by
  have h := encodeR_fields 1#7 rs2 rs1 rd 7#3 0x33#7
  refine ⟨_, row_mem (k := 55) rfl, rfl, accepts_op_f3_f7 rfl rfl rfl rfl rfl h.1 h.2.2.1 h.2.2.2.2.2, fun _ => ?_⟩
  rw [Instr.remu.injEq]
  exact ⟨h.2.1, h.2.2.2.1, h.2.2.2.2.1⟩

end Sys2Proof.Laws
end

