-- ==== Sys2Proof/Tests/Slice0.lean ====
section
/-! SUPPORT. Tests, with expected results from the rules of spec/ and from spec/95_test_vectors.md, and for every statement that has
hypotheses a concrete state and operands that meet them. -/

set_option maxRecDepth 20000

namespace Sys2Proof.Tests

open Sys2Proof.Machine

/-! ### WellFormed: an ill-formed term for each check (R69) -/

theorem test_wellFormed_imm12 :
    (Instr.addi 5 6 2048).wellFormed = false ∧ (Instr.addi 5 6 (-2049)).wellFormed = false ∧
    (Instr.sw 5 6 2048).wellFormed = false ∧ (Instr.lw 5 6 (-2049)).wellFormed = false ∧
    (Instr.jalr 5 6 2048).wellFormed = false ∧ (Instr.fenceI 0 0 2048).wellFormed = false ∧
    (Instr.addi 5 6 2047).wellFormed = true ∧ (Instr.sw 5 6 (-2048)).wellFormed = true := by decide

theorem test_wellFormed_offsetB :
    (Instr.beq 5 6 4096).wellFormed = false ∧ (Instr.bne 5 6 (-4098)).wellFormed = false ∧
    (Instr.blt 5 6 3).wellFormed = false ∧ (Instr.bgeu 5 6 4094).wellFormed = true ∧
    (Instr.bge 5 6 (-4096)).wellFormed = true := by decide

theorem test_wellFormed_offsetJ :
    (Instr.jal 1 1048576).wellFormed = false ∧ (Instr.jal 1 (-1048578)).wellFormed = false ∧
    (Instr.jal 1 1).wellFormed = false ∧ (Instr.jal 1 1048574).wellFormed = true ∧
    (Instr.jal 1 (-1048576)).wellFormed = true := by decide

theorem test_wellFormed_immU :
    (Instr.lui 5 0x12345001).wellFormed = false ∧ (Instr.auipc 5 0x800).wellFormed = false ∧
    (Instr.lui 5 0xFFFFF000).wellFormed = true := by decide

/-! ### A word of every row, written out by the fields of R61 and the map of R76 -/

/-- The word decodes to the instruction with every group on, and without the row's group to nothing. -/
def decodesTo (w : Word) (i : Instr) : Bool :=
  decodeWord Groups.all w == some i && (i.group == .core) == (decodeWord Groups.coreOnly w == some i) &&
    (i.group == .core || decodeWord Groups.coreOnly w == none)

theorem test_decode_jumps :
    decodesTo 0b00010010001101000101_00101_0110111#32 (.lui 5 0x12345000) = true ∧
    decodesTo 0b11111111111111111111_00101_0010111#32 (.auipc 5 0xFFFFF000) = true ∧
    decodesTo 0b1_1111111100_1_11111111_00000_1101111#32 (.jal 0 (-8)) = true ∧
    decodesTo 0b0_0010000000_0_00000000_00001_1101111#32 (.jal 1 0x100) = true ∧
    decodesTo 0b1_0000000000_0_11111111_00001_1101111#32 (.jal 1 (-4096)) = true ∧
    decodesTo 0b111111111111_00110_000_00001_1100111#32 (.jalr 1 6 (-1)) = true := by decide

theorem test_decode_branches :
    decodesTo 0b1_111111_00000_00000_000_1110_1_1100011#32 (.beq 0 0 (-4)) = true ∧
    decodesTo 0b0_111111_00000_00000_000_1111_1_1100011#32 (.beq 0 0 4094) = true ∧
    decodesTo 0b1_000000_00000_00000_001_0000_0_1100011#32 (.bne 0 0 (-4096)) = true ∧
    decodesTo 0b0_000000_00111_00110_100_1000_0_1100011#32 (.blt 6 7 16) = true ∧
    decodesTo 0b0_000000_00111_00110_101_1000_0_1100011#32 (.bge 6 7 16) = true ∧
    decodesTo 0b0_000000_00111_00110_110_1000_0_1100011#32 (.bltu 6 7 16) = true ∧
    decodesTo 0b0_000000_00111_00110_111_1000_0_1100011#32 (.bgeu 6 7 16) = true := by decide

theorem test_decode_loads_stores :
    decodesTo 0b000000000001_00110_000_00101_0000011#32 (.lb 5 6 1) = true ∧
    decodesTo 0b000000000010_00110_001_00101_0000011#32 (.lh 5 6 2) = true ∧
    decodesTo 0b111111111100_00110_010_00101_0000011#32 (.lw 5 6 (-4)) = true ∧
    decodesTo 0b000000000001_00110_100_00101_0000011#32 (.lbu 5 6 1) = true ∧
    decodesTo 0b000000000010_00110_101_00101_0000011#32 (.lhu 5 6 2) = true ∧
    decodesTo 0b0000000_00111_00110_000_00011_0100011#32 (.sb 6 7 3) = true ∧
    decodesTo 0b0000000_00111_00110_001_00010_0100011#32 (.sh 6 7 2) = true ∧
    decodesTo 0b1111111_00111_00110_010_11111_0100011#32 (.sw 6 7 (-1)) = true := by decide

theorem test_decode_opImm :
    decodesTo 0b111111111101_00101_000_00110_0010011#32 (.addi 6 5 (-3)) = true ∧
    decodesTo 0b111111111111_00110_010_00101_0010011#32 (.slti 5 6 (-1)) = true ∧
    decodesTo 0b000000000001_00110_011_00101_0010011#32 (.sltiu 5 6 1) = true ∧
    decodesTo 0b111111111111_00110_100_00101_0010011#32 (.xori 5 6 (-1)) = true ∧
    decodesTo 0b000011110000_00110_110_00101_0010011#32 (.ori 5 6 0xF0) = true ∧
    decodesTo 0b111100000000_00110_111_00101_0010011#32 (.andi 5 6 (-256)) = true ∧
    decodesTo 0b0000000_11111_00110_001_00101_0010011#32 (.slli 5 6 31) = true ∧
    decodesTo 0b0000000_00100_00110_101_00101_0010011#32 (.srli 5 6 4) = true ∧
    decodesTo 0b0100000_00100_00110_101_00101_0010011#32 (.srai 5 6 4) = true := by decide

theorem test_decode_op :
    decodesTo 0b0000000_00111_00110_000_00101_0110011#32 (.add 5 6 7) = true ∧
    decodesTo 0b0100000_00111_00110_000_00101_0110011#32 (.sub 5 6 7) = true ∧
    decodesTo 0b0000000_00111_00110_001_00101_0110011#32 (.sll 5 6 7) = true ∧
    decodesTo 0b0000000_00111_00110_010_00101_0110011#32 (.slt 5 6 7) = true ∧
    decodesTo 0b0000000_00111_00110_011_00101_0110011#32 (.sltu 5 6 7) = true ∧
    decodesTo 0b0000000_00111_00110_100_00101_0110011#32 (.xor 5 6 7) = true ∧
    decodesTo 0b0000000_00111_00110_101_00101_0110011#32 (.srl 5 6 7) = true ∧
    decodesTo 0b0100000_00111_00110_101_00101_0110011#32 (.sra 5 6 7) = true ∧
    decodesTo 0b0000000_00111_00110_110_00101_0110011#32 (.or 5 6 7) = true ∧
    decodesTo 0b0000000_00111_00110_111_00101_0110011#32 (.and 5 6 7) = true := by decide

theorem test_decode_system :
    decodesTo 0b000000000000_00000_000_00000_1110011#32 .ecall = true ∧
    decodesTo 0b001100000010_00000_000_00000_1110011#32 .mret = true ∧
    decodesTo 0b001100000101_00110_001_00101_1110011#32 (.csrrw 5 6 0x305) = true ∧
    decodesTo 0b001101000010_00000_010_00101_1110011#32 (.csrrs 5 0 0x342) = true ∧
    decodesTo 0b001100000000_00110_011_00101_1110011#32 (.csrrc 5 6 0x300) = true ∧
    decodesTo 0b001101000010_11111_101_00101_1110011#32 (.csrrwi 5 31 0x342) = true ∧
    decodesTo 0b001100000000_01000_110_00101_1110011#32 (.csrrsi 5 8 0x300) = true ∧
    decodesTo 0b001100000000_01000_111_00101_1110011#32 (.csrrci 5 8 0x300) = true ∧
    decodesTo 0b000000000001_00000_000_00000_1110011#32 .ebreak = true ∧
    decodesTo 0b1000_0011_0011_00010_000_00001_0001111#32 (.fence 8 3 3 2 1) = true ∧
    decodesTo 0b100000000001_00010_001_00001_0001111#32 (.fenceI 1 2 (-2047)) = true := by decide

theorem test_decode_mulDiv :
    decodesTo 0b0000001_00111_00110_000_00101_0110011#32 (.mul 5 6 7) = true ∧
    decodesTo 0b0000001_00111_00110_001_00101_0110011#32 (.mulh 5 6 7) = true ∧
    decodesTo 0b0000001_00111_00110_010_00101_0110011#32 (.mulhsu 5 6 7) = true ∧
    decodesTo 0b0000001_00111_00110_011_00101_0110011#32 (.mulhu 5 6 7) = true ∧
    decodesTo 0b0000001_00111_00110_100_00101_0110011#32 (.div 5 6 7) = true ∧
    decodesTo 0b0000001_00111_00110_101_00101_0110011#32 (.divu 5 6 7) = true ∧
    decodesTo 0b0000001_00111_00110_110_00101_0110011#32 (.rem 5 6 7) = true ∧
    decodesTo 0b0000001_00111_00110_111_00101_0110011#32 (.remu 5 6 7) = true := by decide

/-- Words that are illegal with every group on (95_test_vectors.md 2.1, R77, R195). -/
theorem test_decode_illegal :
    [0x00000000#32, 0xFFFFFFFF#32, 0x00000001#32, 0x000000F3#32, 0x10500073#32, 0x10200073#32, 0x02031293#32, 0x40001013#32,
     0x40006033#32, 0x0000000B#32, 0x1000202F#32, 0x00003003#32, 0x00006003#32, 0x00003023#32, 0x00002063#32, 0x00001067#32,
     0x00004073#32, 0x00000053#32].all (fun w => decodeWord Groups.all w == none && decodeWord Groups.coreOnly w == none)
      = true := by decide

/-- The decoder on bytes: little-endian, four bytes, a rejection by name (R43, R45, R60, R73). -/
theorem test_decode_bytes :
    decode Groups.all [0x93#8, 0x02#8, 0x50#8, 0x00#8, 0xAA#8] = .ok (.addi 5 0 5, [0xAA#8]) ∧
    decode Groups.all [0x00#8, 0x00#8, 0x00#8, 0x01#8] = .error (.noPatternMatches 0x01000000#32) ∧
    decode Groups.all [0x93#8, 0x02#8, 0x50#8] = .error .fewerThanFourBytes := ⟨rfl, rfl, rfl⟩

/-! ### One step of each instruction (95_test_vectors.md 2.2 to 2.7), at pc 0x1000 -/

/-- The start of the vectors: the word at pc 0x1000, x6 and x7 as given, the CSRs of 95_test_vectors.md 2.5. -/
def machine (g : Groups) (w x6 x7 : Word) : State :=
  { ((State.reset.memWrite 0x1000 .word w).setReg 6 x6).setReg 7 x7 with
    pc := 0x1000, mstatus := 0x1800, mtvec := 0x80000100, mepc := 0x2000, mcause := 0xB,
    params := { defaultParams with groups := g } }

/-- The next state of a step, if there is one. -/
def after (s : State) : Option State :=
  match step s with
  | .next t => some t
  | .fault _ => none
  | .refused _ => none

/-- A register and the pc after one step. -/
def result (r : RegIdx) (w x6 x7 : Word) : Option (Word × Word) :=
  (after (machine Groups.all w x6 x7)).map fun t => (t.reg r, t.pc)

theorem test_lui : result 5 0xFFFFF2B7 0 0 = some (0xFFFFF000, 0x1004) := by decide
theorem test_auipc : result 5 0x00001297 0 0 = some (0x2000, 0x1004) ∧ result 5 0xFFFFF297 0 0 = some (0, 0x1004) := by decide
theorem test_addi : result 5 0xFFF30293 0 0 = some (0xFFFFFFFF, 0x1004) ∧
    result 5 0x00130293 0x7FFFFFFF 0 = some (0x80000000, 0x1004) ∧ result 6 0x00130313 41 0 = some (42, 0x1004) := by decide
theorem test_slti : result 5 0xFFF32293 0xFFFFFFFE 0 = some (1, 0x1004) ∧ result 5 0xFFF32293 0 0 = some (0, 0x1004) := by decide
theorem test_sltiu : result 5 0xFFF33293 0xFFFFFFFE 0 = some (1, 0x1004) ∧ result 5 0x00133293 0 0 = some (1, 0x1004) := by decide
theorem test_xori : result 5 0xFFF34293 0x0F0F0F0F 0 = some (0xF0F0F0F0, 0x1004) := by decide
theorem test_ori : result 5 0x0F036293 0xF00 0 = some (0xFF0, 0x1004) := by decide
theorem test_andi : result 5 0xF0037293 0x12345678 0 = some (0x12345600, 0x1004) := by decide
theorem test_slli : result 5 0x01F31293 3 0 = some (0x80000000, 0x1004) := by decide
theorem test_srli : result 5 0x00435293 0x80000000 0 = some (0x08000000, 0x1004) := by decide
theorem test_srai : result 5 0x40435293 0x80000000 0 = some (0xF8000000, 0x1004) := by decide
theorem test_add : result 5 0x007302B3 0xFFFFFFFF 1 = some (0, 0x1004) ∧ result 0 0x00730033 1 2 = some (0, 0x1004) := by decide
theorem test_sub : result 5 0x407302B3 0 1 = some (0xFFFFFFFF, 0x1004) := by decide
theorem test_sll : result 5 0x007312B3 1 33 = some (2, 0x1004) := by decide
theorem test_slt : result 5 0x007322B3 0x80000000 1 = some (1, 0x1004) := by decide
theorem test_sltu : result 5 0x007332B3 0x80000000 1 = some (0, 0x1004) := by decide
theorem test_xor : result 5 0x007342B3 0xFF00FF00 0x0FF00FF0 = some (0xF0F0F0F0, 0x1004) := by decide
theorem test_srl : result 5 0x007352B3 0x80000000 0x3F = some (1, 0x1004) := by decide
theorem test_sra : result 5 0x407352B3 0x80000000 0x3F = some (0xFFFFFFFF, 0x1004) := by decide
theorem test_or : result 5 0x007362B3 0xF0 0x0F = some (0xFF, 0x1004) := by decide
theorem test_and : result 5 0x007372B3 0xF0 0x3C = some (0x30, 0x1004) := by decide

/-- x5 after a load, with a word stored at 0x2000 and one at 0x2004. -/
def loadResult (r : RegIdx) (w x6 m0 m1 : Word) : Option Word :=
  (after (((machine Groups.all w x6 0).memWrite 0x2000 .word m0).memWrite 0x2004 .word m1)).map fun t => t.reg r

theorem test_lb : loadResult 5 0x00030283 0x2000 0x8180FF7F 0 = some 0x7F ∧
    loadResult 5 0x00130283 0x2000 0x8180FF7F 0 = some 0xFFFFFFFF := by decide
theorem test_lh : loadResult 5 0x00031283 0x2000 0x8180FF7F 0 = some 0xFFFFFF7F ∧
    loadResult 5 0x00231283 0x2000 0x8180FF7F 0 = some 0xFFFF8180 := by decide
theorem test_lw : loadResult 5 0xFFC32283 0x2004 0x8180FF7F 0 = some 0x8180FF7F ∧
    loadResult 5 0x00132283 0x2000 0x44332211 0x88776655 = some 0x55443322 ∧
    loadResult 6 0x00032303 0x2000 0x8180FF7F 0 = some 0x8180FF7F := by decide
theorem test_lbu : loadResult 5 0x00134283 0x2000 0x8180FF7F 0 = some 0xFF := by decide
theorem test_lhu : loadResult 5 0x00235283 0x2000 0x8180FF7F 0 = some 0x8180 := by decide

/-- The word at an address after a store. -/
def storeResult (w x6 x7 a : Word) : Option Word := (after (machine Groups.all w x6 x7)).map fun t => t.memRead a .word

theorem test_sb : storeResult 0x007301A3 0x2000 0x12345678 0x2000 = some 0x78000000 := by decide
theorem test_sh : storeResult 0x00731123 0x2000 0x12345678 0x2000 = some 0x56780000 := by decide
theorem test_sw : storeResult 0x00732023 0x2000 0x12345678 0x2000 = some 0x12345678 ∧
    storeResult 0xFE732FA3 0 0xAABBCCDD 0xFFFFFFFF = some 0xAABBCCDD ∧
    storeResult 0xFE732FA3 0 0xAABBCCDD 0 = some 0x00AABBCC := by decide

theorem test_jal : result 1 0x100000EF 0 0 = some (0x1004, 0x1100) ∧ result 0 0xFF9FF06F 0 0 = some (0, 0x0FF8) ∧
    result 1 0x800FF0EF 0 0 = some (0x1004, 0) := by decide
theorem test_jalr : result 1 0x004300E7 0x3001 0 = some (0x1004, 0x3004) ∧ result 1 0xFFF300E7 0x3000 0 = some (0x1004, 0x2FFE) ∧
    result 6 0x00030367 0x3000 0 = some (0x1004, 0x3000) := by decide
theorem test_beq : result 0 0x00730863 5 5 = some (0, 0x1010) ∧ result 0 0x00730863 5 6 = some (0, 0x1004) ∧
    result 0 0xFE000EE3 0 0 = some (0, 0x0FFC) ∧ result 0 0x7E000FE3 0 0 = some (0, 0x1FFE) := by decide
theorem test_bne : result 0 0x00731863 5 6 = some (0, 0x1010) ∧ result 0 0x00731863 5 5 = some (0, 0x1004) := by decide
theorem test_blt : result 0 0x00734863 0xFFFFFFFF 0 = some (0, 0x1010) ∧
    result 0 0x00734863 0 0xFFFFFFFF = some (0, 0x1004) := by decide
theorem test_bge : result 0 0x00735863 0 0xFFFFFFFF = some (0, 0x1010) ∧
    result 0 0x00735863 0xFFFFFFFF 0 = some (0, 0x1004) ∧ result 0 0x00735863 5 5 = some (0, 0x1010) := by decide
theorem test_bltu : result 0 0x00736863 0 0xFFFFFFFF = some (0, 0x1010) ∧
    result 0 0x00736863 0xFFFFFFFF 0 = some (0, 0x1004) := by decide
theorem test_bgeu : result 0 0x00737863 0xFFFFFFFF 0 = some (0, 0x1010) ∧
    result 0 0x00737863 0 0xFFFFFFFF = some (0, 0x1004) ∧ result 0 0x00737863 7 7 = some (0, 0x1010) := by decide

/-- A register and a CSR after one step. -/
def csrResult (r : RegIdx) (c : Csr) (w x6 : Word) : Option (Word × Word) :=
  (after (machine Groups.all w x6 0)).map fun t => (t.reg r, t.csr c)

/-- The status, x5 and the pc after one step. -/
def statusResult (g : Groups) (w : Word) : Option (Status × Word × Word) :=
  (after (machine g w 0 0)).map fun t => (t.status, t.reg 5, t.pc)

theorem test_csrrw : csrResult 5 .mtvec 0x305312F3 0x80000200 = some (0x80000100, 0x80000200) ∧
    csrResult 0 .mepc 0x34131073 0x3000 = some (0, 0x3000) ∧ csrResult 6 .mstatus 0x30031373 8 = some (0x1800, 8) := by decide
theorem test_csrrw_unmapped : statusResult Groups.coreOnly 0xC00012F3
    = some (.halted (.unsupportedCsr 0x1000 0xC00012F3 0xC00), 0, 0x1000) := by decide
theorem test_csrrs : csrResult 5 .mstatus 0x300322F3 8 = some (0x1800, 0x1808) ∧
    csrResult 5 .mcause 0x342022F3 8 = some (0xB, 0xB) := by decide
theorem test_csrrs_unmapped : statusResult Groups.coreOnly 0x344022F3
    = some (.halted (.unsupportedCsr 0x1000 0x344022F3 0x344), 0, 0x1000) := by decide
theorem test_csrrc : csrResult 5 .mstatus 0x300332F3 0x800 = some (0x1800, 0x1000) := by decide
theorem test_csrrwi : csrResult 5 .mcause 0x342FD2F3 0 = some (0xB, 0x1F) := by decide
theorem test_csrrsi : csrResult 5 .mstatus 0x300462F3 0 = some (0x1800, 0x1808) := by decide
theorem test_csrrci : (after { machine Groups.all 0x300472F3 0 0 with mstatus := 0x1808 }).map (fun t => (t.reg 5, t.mstatus))
    = some (0x1808, 0x1800) := by decide

theorem test_ecall : (after ((machine Groups.coreOnly 0x00000073 0 0).setReg 17 93)).map
    (fun t => ((t.mepc, t.mcause, t.pc), (t.mstatus, t.mtvec), t.result))
    = some ((0x1000, 0x5D, 0x80000100), (0x1800, 0x80000100), some (.trapped 93 0x1000)) := by decide
theorem test_ecall_hostResume : (after { (machine Groups.coreOnly 0x00000073 0 0).setReg 17 93 with
      params := { defaultParams with trapDispatch := .hostResume ⟨[⟨93, 0x1000, 0x1004⟩], 0⟩ } }).map
    (fun t => (t.pc, t.mepc, t.mcause, t.result)) = some (0x1004, 0x2000, 0xB, some (.trapped 93 0x1000)) := by decide
theorem test_mret : (after (machine Groups.coreOnly 0x30200073 0 0)).map (fun t => (t.pc, t.mepc, t.mstatus, t.mcause))
    = some (0x2000, 0x2000, 0x1800, 0xB) := by decide
theorem test_ebreak : statusResult Groups.all 0x00100073 = some (.halted (.completed 0x1000), 0, 0x1000) ∧
    statusResult Groups.coreOnly 0x00100073 = some (.halted (.decodeError 0x1000 0x00100073), 0, 0x1000) := by decide
theorem test_fence : result 0 0x0FF0000F 0 0 = some (0, 0x1004) := by decide
theorem test_fenceI : result 0 0x0000100F 0 0 = some (0, 0x1004) := by decide

theorem test_mul : result 5 0x027302B3 0xFFFFFFF9 3 = some (0xFFFFFFEB, 0x1004) := by decide
theorem test_mulh : result 5 0x027312B3 0x80000000 0x7FFFFFFF = some (0xC0000000, 0x1004) := by decide
theorem test_mulhsu : result 5 0x027322B3 0xFFFFFFF9 0xFFFFFFFD = some (0xFFFFFFF9, 0x1004) := by decide
theorem test_mulhu : result 5 0x027332B3 0xFFFFFFFF 0xFFFFFFFF = some (0xFFFFFFFE, 0x1004) := by decide
theorem test_div : result 5 0x027342B3 0xFFFFFFF9 3 = some (0xFFFFFFFE, 0x1004) := by decide
theorem test_divu : result 5 0x027352B3 0x80000000 2 = some (0x40000000, 0x1004) := by decide
theorem test_rem : result 5 0x027362B3 7 0xFFFFFFFD = some (1, 0x1004) := by decide
theorem test_remu : result 5 0x027372B3 0xFFFFFFF9 0xFFFFFFFD = some (0xFFFFFFF9, 0x1004) := by decide

/-- The rows of 95_test_vectors.md 2.7: x6, x7, then mul, mulh, mulhsu, mulhu, div, divu, rem, remu. -/
theorem test_mulDiv_table :
    [ (0x7#32, 0x3#32, [0x15#32, 0x0#32, 0x0#32, 0x0#32, 0x2#32, 0x2#32, 0x1#32, 0x1#32]),
      (0xFFFFFFF9#32, 0x3#32, [0xFFFFFFEB#32, 0xFFFFFFFF#32, 0xFFFFFFFF#32, 0x2#32, 0xFFFFFFFE#32, 0x55555553#32, 0xFFFFFFFF#32, 0x0#32]),
      (0x7#32, 0xFFFFFFFD#32, [0xFFFFFFEB#32, 0xFFFFFFFF#32, 0x6#32, 0x6#32, 0xFFFFFFFE#32, 0x0#32, 0x1#32, 0x7#32]),
      (0xFFFFFFF9#32, 0xFFFFFFFD#32, [0x15#32, 0x0#32, 0xFFFFFFF9#32, 0xFFFFFFF6#32, 0x2#32, 0x0#32, 0xFFFFFFFF#32, 0xFFFFFFF9#32]),
      (0x5#32, 0x0#32, [0x0#32, 0x0#32, 0x0#32, 0x0#32, 0xFFFFFFFF#32, 0xFFFFFFFF#32, 0x5#32, 0x5#32]),
      (0x80000000#32, 0xFFFFFFFF#32, [0x80000000#32, 0x0#32, 0x80000000#32, 0x7FFFFFFF#32, 0x80000000#32, 0x0#32, 0x0#32, 0x80000000#32]),
      (0x80000000#32, 0x7FFFFFFF#32, [0x80000000#32, 0xC0000000#32, 0xC0000000#32, 0x3FFFFFFF#32, 0xFFFFFFFF#32, 0x1#32, 0xFFFFFFFF#32, 0x1#32])
      ].all (fun r => [r.1 * r.2.1, mulHigh r.1 r.2.1, mulHighSignedUnsigned r.1 r.2.1, mulHighUnsigned r.1 r.2.1,
        divSigned r.1 r.2.1, divUnsigned r.1 r.2.1, remSigned r.1 r.2.1, remUnsigned r.1 r.2.1] == r.2.2) = true := by decide

/-! ### The step around an instruction, the launch and the host layer -/

/-- P4: an all-zero word halts and writes nothing; the halted core has no step (R73, R37). -/
theorem test_decodeError :
    statusResult Groups.all 0x00000000 = some (.halted (.decodeError 0x1000 0), 0, 0x1000) ∧
    (after (machine Groups.all 0 0 0)).bind after = none := by decide

/-- The state with one region outside `PLAIN`. -/
def withDevice (s : State) (base : Word) (size : Nat) : State := { s with params := { s.params with devices := [⟨base, size⟩] } }

/-- A fetch, a load and a store that touch one byte outside `PLAIN` have no step (R50). -/
theorem test_outsidePlain :
    step (withDevice (machine Groups.all 0x13 0 0) 0x1003 1) = .fault (.outsidePlain 0x1000) ∧
    step (withDevice (machine Groups.all 0x00032283 0x1FFD 0) 0x2000 16) = .fault (.outsidePlain 0x1FFD) ∧
    step (withDevice (machine Groups.all 0x00731123 0xFFFFFFFD 0) 0xFFFFFFFF 1) = .fault (.outsidePlain 0xFFFFFFFF) :=
  ⟨rfl, rfl, rfl⟩

/-- `withFetchWord` makes the first step after reset run the word, with its group on. -/
theorem test_withFetchWord :
    (after (State.reset.withFetchWord 32 0xFFF30293)).map (fun t => (t.reg 5, t.pc)) = some (0xFFFFFFFF, 4) ∧
    (after (State.reset.withFetchWord 32 0x00100073)).map (fun t => t.status) = some (.halted (.completed 0)) ∧
    decodeTableWord 32 0x00100073 = some .ebreak ∧ decodeTableWord 32 0 = none := by decide

/-- A burst stops at the trap step, which has committed its resume PC, and at the count (R262). -/
theorem test_burst :
    (match burst 5 ((machine Groups.coreOnly 0x00000073 0 0).setReg 17 93) with
      | .next t => some (t.pc, t.result) | _ => none) = some (0x80000100, some (.trapped 93 0x1000)) ∧
    (match stepInto none (machine Groups.coreOnly 0x00000013 0 0) with
      | .next t => some t.pc | _ => none) = some 0x1004 ∧
    (match continueRun 2 (machine Groups.coreOnly 0x00000013 0 0) with
      | some (.next t) => some t.status | _ => none) = some (.halted (.decodeError 0x1004 0)) ∧
    examine (machine Groups.coreOnly 0x12345678 0 0) 0x1000 4 = [0x78, 0x56, 0x34, 0x12] := by decide

/-! ### Witnesses: for each statement with hypotheses, a state and operands that meet them all -/

/-- A step that answers a next state with a property, from an evaluation. -/
theorem exists_next {s : State} (P : State → Bool) (h : (after s).any P = true) : ∃ t, step s = .next t ∧ P t = true := by
  cases hs : step s with
  | next t => simp only [after, hs] at h; exact ⟨t, rfl, h⟩
  | fault f => simp only [after, hs] at h; cases h
  | refused r => simp only [after, hs] at h; cases h

theorem witness_DecodeOfEncodeIsTheInstruction :
    [Instr.addi 31 31 (-2048), .addi 0 0 2047, .sw 31 0 (-2048), .sb 0 31 2047, .beq 31 31 (-4096), .bgeu 0 0 4094, .jal 31 (-1048576),
     .jal 0 1048574, .lui 31 0xFFFFF000, .csrrci 31 31 0xFFF, .fence 15 15 15 31 31, .fenceI 31 31 (-2048), .ebreak, .remu 31 31 31,
     .srai 31 31 31].all (fun i => i.wellFormed && Groups.all.has i.group) = true := by decide

theorem witness_EncodeOfDecodeIsTheWord :
    decodeWord Groups.coreOnly 0x80000FEF#32 = some (.jal 31 (-1048576)) ∧
    decodeWord Groups.all 0xFFFFFFF3#32 = some (.csrrci 31 31 0xFFF) := by decide

theorem witness_WordMatchesOneRowOrRaisesDecodeError :
    (∃ r ∈ rowsOf Groups.coreOnly, r.accepts 0x00000013#32 = true) ∧
    (∀ r ∈ rowsOf Groups.coreOnly, r.accepts 0x02B50533#32 = false) ∧
    (machine Groups.coreOnly 0x02B50533 0 0).status = .running ∧
    PlainRange (machine Groups.coreOnly 0x02B50533 0 0) (machine Groups.coreOnly 0x02B50533 0 0).pc 4 ∧
    (machine Groups.coreOnly 0x02B50533 0 0).params.groups = Groups.coreOnly ∧
    (machine Groups.coreOnly 0x02B50533 0 0).fetchWord = 0x02B50533#32 :=
  ⟨by decide, by decide, rfl, fun _ _ => rfl, rfl, by decide⟩

theorem witness_ImmediatesTakeTheirBitsFromTheWord : (0 : Nat) < 32 ∧ (31 : Nat) < 32 := by decide

/-- A disabled instruction of each group, fetched by a running core. -/
theorem witness_DecodeErrorWithoutGroup :
    ∀ i ∈ [Instr.csrrc 5 6 0x300, .csrrwi 5 31 0x342, .csrrsi 5 8 0x300, .csrrci 5 8 0x300, .ebreak, .fence 15 15 15 31 31,
        .fenceI 0 0 0, .mul 5 6 7, .remu 5 6 7],
      Groups.coreOnly.has i.group = false ∧ (machine Groups.coreOnly (encode i) 0 0).params.groups = Groups.coreOnly ∧
      (machine Groups.coreOnly (encode i) 0 0).status = .running ∧
      PlainRange (machine Groups.coreOnly (encode i) 0 0) (machine Groups.coreOnly (encode i) 0 0).pc 4 ∧
      (machine Groups.coreOnly (encode i) 0 0).fetchWord = encode i := by
  have h : ∀ i ∈ [Instr.csrrc 5 6 0x300, .csrrwi 5 31 0x342, .csrrsi 5 8 0x300, .csrrci 5 8 0x300, .ebreak, .fence 15 15 15 31 31,
      .fenceI 0 0 0, .mul 5 6 7, .remu 5 6 7],
      Groups.coreOnly.has i.group = false ∧ (machine Groups.coreOnly (encode i) 0 0).fetchWord = encode i := by decide
  exact fun i hi => ⟨(h i hi).1, rfl, rfl, fun _ _ => rfl, (h i hi).2⟩

theorem witness_StepRunsTheDecodedInstruction :
    Fetches (machine Groups.coreOnly 0x007302B3 0 0) (.add 5 6 7) ∧
    Fetches { State.reset.memWrite 0xFFFFFFFD .word 0x00130293 with pc := 0xFFFFFFFD } (.addi 5 6 1) :=
  ⟨⟨rfl, fun _ _ => rfl, rfl⟩, ⟨rfl, fun _ _ => rfl, rfl⟩⟩

theorem witness_UnmatchedWordHaltsAndWritesNothing :
    (machine Groups.all 0x10500073 0 0).status = .running ∧
    PlainRange (machine Groups.all 0x10500073 0 0) (machine Groups.all 0x10500073 0 0).pc 4 ∧
    (0x10500073#32).toNat = ((machine Groups.all 0x10500073 0 0).byteAt 0x1000).toNat
      + 256 * ((machine Groups.all 0x10500073 0 0).byteAt 0x1001).toNat
      + 65536 * ((machine Groups.all 0x10500073 0 0).byteAt 0x1002).toNat
      + 16777216 * ((machine Groups.all 0x10500073 0 0).byteAt 0x1003).toNat ∧
    ∀ r ∈ rowsOf Groups.all, 0x10500073#32 &&& r.mask ≠ r.pattern :=
  ⟨rfl, fun _ _ => rfl, by decide, by decide⟩

theorem witness_HaltedIsFinal :
    (State.reset.halt (.decodeError 0 0)).status = .halted (.decodeError 0 0) ∧
    (State.reset.halt (.unsupportedCsr 0 0xC00022F3 0xC00)).status = .halted (.unsupportedCsr 0 0xC00022F3 0xC00) ∧
    (State.reset.halt (.completed 0)).status = .halted (.completed 0) := ⟨rfl, rfl, rfl⟩

theorem witness_AccessOutsidePlainHasNoStep :
    (withDevice State.reset 3 1).status = .running ∧ ¬ PlainRange (withDevice State.reset 3 1) 0 4 ∧
    ¬ PlainRange (withDevice State.reset 0x2000 1) ((withDevice State.reset 0x2000 1).effAddr 0 0x2000) 1 ∧
    ¬ PlainRange (withDevice State.reset 0x2000 1) ((withDevice State.reset 0x2000 1).effAddr 0 0x1FFF) 2 ∧
    ¬ PlainRange (withDevice State.reset 0 1) ((withDevice State.reset 0 1).effAddr 0 0xFFFFFFFD) 4 :=
  ⟨rfl, fun h => absurd (h 3 (by decide)) (by decide), fun h => absurd (h 0 (by decide)) (by decide),
    fun h => absurd (h 1 (by decide)) (by decide), fun h => absurd (h 3 (by decide)) (by decide)⟩

theorem witness_RunningCoreAlwaysSteps : State.reset.status = .running ∧ ∀ a, State.reset.plain a = true := ⟨rfl, fun _ => rfl⟩

theorem witness_StepStopsOnlyWhereTheSpecHasNoStep :
    step (State.reset.halt (.completed 0)) = .fault .notRunning ∧
    step (withDevice State.reset 3 1) = .fault (.outsidePlain 0) ∧
    step (withDevice (machine Groups.all 0x00030283 0x2000 0) 0x2000 1) = .fault (.outsidePlain 0x2000) ∧
    step (withDevice (machine Groups.all 0x00731023 0x1FFF 0) 0x2000 1) = .fault (.outsidePlain 0x1FFF) ∧
    step (withDevice (machine Groups.all 0x00032283 0xFFFFFFFD 0) 0 1) = .fault (.outsidePlain 0xFFFFFFFD) :=
  ⟨rfl, rfl, rfl, rfl, rfl⟩

/-- A byte load whose neighbour is a device runs: only the bytes of its own width count (R50). -/
theorem test_plain_byte_beside_device :
    (after (withDevice (machine Groups.all 0x00030283 0x1FFF 0) 0x2000 1)).map (fun t => t.pc) = some 0x1004 := by decide

theorem witness_UpperImmediateResults : (Instr.lui 5 0xFFFFF000).wellFormed = true ∧ (Instr.lui 5 0).wellFormed = true := by decide

theorem witness_ShiftResults :
    ((0x02031293#32).extractLsb' 0 7).toNat = 0x13 ∧ ((0x02031293#32).extractLsb' 12 3).toNat = 1 ∧
    ((0x02031293#32).extractLsb' 25 7).toNat ≠ 0 := by decide

theorem witness_HintsChangeOnlyThePc :
    ∀ i ∈ [Instr.addi 0 0 1, .slli 0 6 31, .add 0 6 7, .mul 0 6 7],
      i.isOpOrOpImm = true ∧ i.dest = some 0#5 ∧ (machine Groups.all (encode i) 1 2).reg 0#5 = 0#32 := by decide

/-- Accesses of every width that wrap from 0xFFFFFFFF, and ones that end just below a device. -/
theorem witness_LoadResults :
    (0xFFFFFFFF#32 = BitVec.ofNat 32 (((machine Groups.all 0 0 0).reg 6).toNat + (0xFFFFFFFF#32).toNat)) ∧
    PlainRange (machine Groups.all 0 0 0) 0xFFFFFFFF 1 ∧ PlainRange (machine Groups.all 0 0 0) 0xFFFFFFFF 2 ∧
    PlainRange (machine Groups.all 0 0 0) 0xFFFFFFFF 4 ∧ PlainRange (withDevice (machine Groups.all 0 0 0) 0x2004 1) 0x2000 4 :=
  ⟨by decide, fun _ _ => rfl, fun _ _ => rfl, fun _ _ => rfl, fun k hk => by interval_cases k <;> decide⟩

theorem witness_StoreResults :
    Memory.wf (machine Groups.all 0xFE732FA3 0 0xAABBCCDD).mem = true ∧
    (machine Groups.all 0xFE732FA3 0 0xAABBCCDD).effAddr 6 (-1) = 0xFFFFFFFF#32 ∧
    PlainRange (machine Groups.all 0xFE732FA3 0 0xAABBCCDD) 0xFFFFFFFF 1 ∧
    PlainRange (machine Groups.all 0xFE732FA3 0 0xAABBCCDD) 0xFFFFFFFF 2 ∧
    PlainRange (machine Groups.all 0xFE732FA3 0 0xAABBCCDD) 0xFFFFFFFF 4 :=
  ⟨by decide, by decide, fun _ _ => rfl, fun _ _ => rfl, fun _ _ => rfl⟩

theorem witness_NarrowReadsSeeTheWordStored :
    Memory.wf (machine Groups.all 0x13 0 0).mem = true ∧
    ((machine Groups.all 0x13 0 0).memWrite 0x2000 .word 0x11223344).memRead 0x2000 .half = 0x3344#32 := by decide

theorem witness_StoreToNextInstructionIsFetchedNext :
    Fetches (machine Groups.coreOnly 0x00732223 0x1000 0x02A00393) (.sw 6 7 4) ∧
    Memory.wf (machine Groups.coreOnly 0x00732223 0x1000 0x02A00393).mem = true ∧
    (machine Groups.coreOnly 0x00732223 0x1000 0x02A00393).effAddr 6 4
      = (machine Groups.coreOnly 0x00732223 0x1000 0x02A00393).pc + 4 ∧
    PlainRange (machine Groups.coreOnly 0x00732223 0x1000 0x02A00393) (0x1000 + 4) 4 ∧
    decodeWord Groups.coreOnly ((machine Groups.coreOnly 0x00732223 0x1000 0x02A00393).reg 7) = some (.addi 7 0 42) :=
  ⟨⟨rfl, fun _ _ => rfl, rfl⟩, by decide, by decide, fun _ _ => rfl, by decide⟩

theorem witness_JumpResults : (1 : Nat) ≤ 1 ∧ (1 : Nat) < 32 ∧ (31 : Nat) < 32 := by decide

theorem witness_PcTurnsOddOnlyThroughTrapOrReturn :
    (∃ t, step { machine Groups.coreOnly 0x00000073 0 0 with mtvec := 0x80000101 } = .next t ∧
      (t.pc.toNat % 2 == 1) = true) ∧
    (∃ t, step { machine Groups.coreOnly 0x30200073 0 0 with mepc := 0x2001 } = .next t ∧ (t.pc.toNat % 2 == 1) = true) ∧
    (0x1000#32).toNat % 2 = 0 :=
  ⟨exists_next _ (by decide), exists_next _ (by decide), by decide⟩

/-- Each of the four CSR addresses, and unmapped ones beside them. -/
theorem witness_CsrReadWriteAndSetResults :
    (0x300#12, Csr.mstatus) ∈ [(0x300#12, Csr.mstatus), (0x305#12, Csr.mtvec), (0x341#12, Csr.mepc), (0x342#12, Csr.mcause)] ∧
    (0x305#12, Csr.mtvec) ∈ [(0x300#12, Csr.mstatus), (0x305#12, Csr.mtvec), (0x341#12, Csr.mepc), (0x342#12, Csr.mcause)] ∧
    (0x341#12, Csr.mepc) ∈ [(0x300#12, Csr.mstatus), (0x305#12, Csr.mtvec), (0x341#12, Csr.mepc), (0x342#12, Csr.mcause)] ∧
    (0x342#12, Csr.mcause) ∈ [(0x300#12, Csr.mstatus), (0x305#12, Csr.mtvec), (0x341#12, Csr.mepc), (0x342#12, Csr.mcause)] ∧
    0x340#12 ∉ [0x300#12, 0x305#12, 0x341#12, 0x342#12] ∧ 0x343#12 ∉ [0x300#12, 0x305#12, 0x341#12, 0x342#12] := by decide

theorem witness_CsrFullGroupResults :
    Instr.csrrwi 5 31 0x344 ∈ [Instr.csrrc 5 6 0x344, .csrrwi 5 31 0x344, .csrrsi 5 31 0x344, .csrrci 5 31 0x344] ∧
    0x344#12 ∉ [0x300#12, 0x305#12, 0x341#12, 0x342#12] := by decide

theorem witness_UnmappedCsrHaltsAndWritesNothing :
    Fetches (machine Groups.coreOnly 0xC0002373 0 0) (.csrrs 6 0 0xC00) ∧ (Instr.csrrs 6 0 0xC00).csrAddr = some 0xC00#12 ∧
    0xC00#12 ≠ 0x300#12 ∧ 0xC00#12 ≠ 0x305#12 ∧ 0xC00#12 ≠ 0x341#12 ∧ 0xC00#12 ≠ 0x342#12 :=
  ⟨⟨rfl, fun _ _ => rfl, rfl⟩, by decide⟩

theorem witness_EcallTakesMachineEntry : (machine Groups.coreOnly 0x73 0 0).params.trapDispatch = .machineEntry := rfl

/-- A state whose host resumes the `ecall` of the vectors, and answers `otherwise` for every other event. -/
def hosted (w : Word) : State :=
  { machine Groups.coreOnly w 0 0 with
    params := { defaultParams with trapDispatch := .hostResume ⟨[⟨0, 0x1000, 0x1004⟩], 0x4000⟩ } }

theorem witness_EcallTakesHostResume :
    (hosted 0x73).params.trapDispatch = .hostResume ⟨[⟨0, 0x1000, 0x1004⟩], 0x4000⟩ ∧
    (after (hosted 0x73)).map (fun t => t.pc) = some 0x1004 ∧
    (after ((hosted 0x73).setReg 17 93)).map (fun t => t.pc) = some 0x4000 := ⟨rfl, by decide, by decide⟩

theorem witness_TrapHandlerResumesAfterTheEcall :
    (machine Groups.coreOnly 0x73 0 0).params.trapDispatch = .machineEntry ∧ (6#5 ≠ 0#5) ∧ (17#5 ≠ 0#5) := ⟨rfl, by decide, by decide⟩

/-- The divisions of 95_test_vectors.md 2.7: by zero, the overflow, and its neighbours on both sides. -/
theorem witness_SignedDivisionResults :
    (machine Groups.all 0 5 0).reg 7 = 0#32 ∧
    ((machine Groups.all 0 0x80000000 0xFFFFFFFF).reg 6 = 0x80000000#32 ∧
      (machine Groups.all 0 0x80000000 0xFFFFFFFF).reg 7 = 0xFFFFFFFF#32) ∧
    ((machine Groups.all 0 0x80000001 0xFFFFFFFF).reg 7 ≠ 0#32 ∧
      ¬ ((machine Groups.all 0 0x80000001 0xFFFFFFFF).reg 6 = 0x80000000#32 ∧
        (machine Groups.all 0 0x80000001 0xFFFFFFFF).reg 7 = 0xFFFFFFFF#32) ∧
      ((machine Groups.all 0 0x80000001 0xFFFFFFFF).reg 6).toInt ≤ 0) ∧
    0 ≤ ((machine Groups.all 0 7 0xFFFFFFFD).reg 6).toInt := by decide

theorem witness_UnsignedDivisionResults :
    (machine Groups.all 0 5 0).reg 7 = 0#32 ∧ (machine Groups.all 0 5 1).reg 7 ≠ 0#32 ∧
    (machine Groups.all 0 5 0xFFFFFFFF).reg 7 ≠ 0#32 := by decide

theorem witness_LaunchStateIsTheLoaders : (1#5 : RegIdx) ≠ 0#5 ∧ (31#5 : RegIdx) ≠ 0#5 := by decide

theorem witness_StepKeepsInvariant :
    CoreInv (machine Groups.coreOnly 0x00732023 0x2000 0x12345678) ∧
    ∃ t, step (machine Groups.coreOnly 0x00732023 0x2000 0x12345678) = .next t ∧ (t.mem != []) = true :=
  ⟨⟨by decide, by decide⟩, exists_next _ (by decide)⟩

theorem witness_ZeroRegisterAfterEveryInstruction :
    ∃ t, exec (.add 0 6 7) (machine Groups.coreOnly 0 1 2) = .next t ∧ t.status = (machine Groups.coreOnly 0 1 2).status ∧
      (machine Groups.coreOnly 0 1 2).status = .running := ⟨_, rfl, rfl, rfl⟩

theorem witness_StepKeepsParameters :
    ∃ t, step (machine Groups.all 0x007302B3 0 0) = .next t ∧ (t.params == (machine Groups.all 0x007302B3 0 0).params) = true :=
  exists_next _ (by decide)

theorem witness_OnlyTheDestinationRegisterChanges :
    (∃ t, exec (.add 5 6 7) (machine Groups.coreOnly 0 1 2) = .next t) ∧ (6#5 ≠ 0#5) ∧ (Instr.add 5 6 7).dest ≠ some 6#5 ∧
    (∃ t, exec (.sw 6 7 0) (machine Groups.coreOnly 0 1 2) = .next t) ∧ (Instr.sw 6 7 0).dest ≠ some 6#5 :=
  ⟨⟨_, rfl⟩, by decide, by decide, ⟨_, rfl⟩, by decide⟩

theorem witness_CsrChangesOnlyByCsrInstructionOrTrap :
    (∃ t, exec (.csrrw 5 6 0x300) (machine Groups.coreOnly 0 1 2) = .next t ∧
      t.csr .mstatus ≠ (machine Groups.coreOnly 0 1 2).csr .mstatus) ∧
    (∃ t, exec .ecall (machine Groups.coreOnly 0 1 2) = .next t ∧ t.csr .mepc ≠ (machine Groups.coreOnly 0 1 2).csr .mepc ∧
      t.csr .mcause ≠ (machine Groups.coreOnly 0 1 2).csr .mcause) :=
  ⟨⟨_, rfl, by decide⟩, ⟨_, rfl, by decide, by decide⟩⟩

theorem witness_OnlyStoresWriteMemory :
    (∃ t, exec (.lw 5 6 0) (machine Groups.coreOnly 0x13 0x1000 0) = .next t) ∧ (Instr.lw 5 6 0).storeWidth = none ∧
    (∃ t, exec .ecall (machine Groups.coreOnly 0x13 0 0) = .next t) ∧ Instr.ecall.storeWidth = none :=
  ⟨⟨_, rfl⟩, rfl, ⟨_, rfl⟩, rfl⟩

theorem witness_MstatusBitsChangeNothing :
    (∃ t, step (machine Groups.coreOnly 0x00000073 0 0) = .next t ∧ (t.pc == 0x80000100) = true) ∧
    (∀ i, decodeWord Groups.coreOnly (machine Groups.coreOnly 0x00000073 0 0).fetchWord = some i → i.csrAddr ≠ some 0x300#12) ∧
    ∀ n, (machine Groups.coreOnly 0x00000073 0 0).params.trapDispatch ≠ .custom n := by
  refine ⟨exists_next _ (by decide), fun i h => ?_, fun _ h => nomatch h⟩
  have e : decodeWord Groups.coreOnly (machine Groups.coreOnly 0x00000073 0 0).fetchWord = some .ecall := by decide
  rw [e] at h
  cases h
  decide

/-- The three ends of a run. -/
theorem witness_HaltsHaveThreeCausesAndWriteNothing :
    (∃ t, step (machine Groups.coreOnly 0 0 0) = .next t ∧ (t.status == .halted (.decodeError 0x1000 0)) = true) ∧
    (∃ t, step (machine Groups.coreOnly 0xC0002373 0 0) = .next t ∧
      (t.status == .halted (.unsupportedCsr 0x1000 0xC0002373 0xC00)) = true) ∧
    (∃ t, step (machine Groups.all 0x00100073 0 0) = .next t ∧ (t.status == .halted (.completed 0x1000)) = true) :=
  ⟨exists_next _ (by decide), exists_next _ (by decide), exists_next _ (by decide)⟩

theorem witness_StepResultTellsWhatHappened :
    (∃ t, step (machine Groups.coreOnly 0x73 0 0) = .next t ∧ (t.result == some (.trapped 0 0x1000)) = true) ∧
    (∃ t, step (machine Groups.coreOnly 0 0 0) = .next t ∧ (t.result == some (.halted (.decodeError 0x1000 0))) = true) ∧
    (∃ t, step (machine Groups.coreOnly 0x13 0 0) = .next t ∧ (t.result == some (.continued 0x1004)) = true) :=
  ⟨exists_next _ (by decide), exists_next _ (by decide), exists_next _ (by decide)⟩

/-- A burst that ends at its count, one that ends with a trap step, and one that a halt ends. -/
theorem witness_BurstStopsAtCountHaltOrTrap :
    (∃ t, burst 1 (machine Groups.coreOnly 0x13 0 0) = .next t) ∧ (∃ t, burst 3 (machine Groups.coreOnly 0x73 0 0) = .next t) ∧
    (∃ t, burst 3 (machine Groups.coreOnly 0 0 0) = .next t) := ⟨⟨_, rfl⟩, ⟨_, rfl⟩, ⟨_, rfl⟩⟩

theorem witness_ContinueRunsUntilTheHalt :
    (∃ t, continueRun 2 (machine Groups.coreOnly 0x13 0 0) = some (.next t)) ∧
    (∃ t, Host.Core.run Sys2Proof.core 2 (machine Groups.coreOnly 0x13 0 0) = .next t ∧
      t.status = .halted (.decodeError 0x1004 0)) ∧ (2 : Nat) ≤ 2 := ⟨⟨_, rfl⟩, ⟨_, rfl, rfl⟩, by decide⟩

theorem witness_HostReadsRegistersAndMemory : (0 : Nat) < 4 ∧ (3 : Nat) < 4 := by decide

end Sys2Proof.Tests
end

section
/-! A disabled group has no row: what the word of an instruction says about the rows that accept it, and the step of a core that
fetches a word no row accepts (R8, R72, R73). -/

namespace Sys2Proof.Laws

/-- The per-instruction family EncodeMatches, as one statement about every instruction. -/
theorem encodeMatches : ∀ i : Instr, EncodeMatches.Statement i
  | .lui .. => EncodeMatches.lui ..
  | .auipc .. => EncodeMatches.auipc ..
  | .jal .. => EncodeMatches.jal ..
  | .jalr .. => EncodeMatches.jalr ..
  | .beq .. => EncodeMatches.beq ..
  | .bne .. => EncodeMatches.bne ..
  | .blt .. => EncodeMatches.blt ..
  | .bge .. => EncodeMatches.bge ..
  | .bltu .. => EncodeMatches.bltu ..
  | .bgeu .. => EncodeMatches.bgeu ..
  | .lb .. => EncodeMatches.lb ..
  | .lh .. => EncodeMatches.lh ..
  | .lw .. => EncodeMatches.lw ..
  | .lbu .. => EncodeMatches.lbu ..
  | .lhu .. => EncodeMatches.lhu ..
  | .sb .. => EncodeMatches.sb ..
  | .sh .. => EncodeMatches.sh ..
  | .sw .. => EncodeMatches.sw ..
  | .addi .. => EncodeMatches.addi ..
  | .slti .. => EncodeMatches.slti ..
  | .sltiu .. => EncodeMatches.sltiu ..
  | .xori .. => EncodeMatches.xori ..
  | .ori .. => EncodeMatches.ori ..
  | .andi .. => EncodeMatches.andi ..
  | .slli .. => EncodeMatches.slli ..
  | .srli .. => EncodeMatches.srli ..
  | .srai .. => EncodeMatches.srai ..
  | .add .. => EncodeMatches.add ..
  | .sub .. => EncodeMatches.sub ..
  | .sll .. => EncodeMatches.sll ..
  | .slt .. => EncodeMatches.slt ..
  | .sltu .. => EncodeMatches.sltu ..
  | .xor .. => EncodeMatches.xor ..
  | .srl .. => EncodeMatches.srl ..
  | .sra .. => EncodeMatches.sra ..
  | .or .. => EncodeMatches.or ..
  | .and .. => EncodeMatches.and ..
  | .ecall => EncodeMatches.ecall
  | .mret => EncodeMatches.mret
  | .csrrw .. => EncodeMatches.csrrw ..
  | .csrrs .. => EncodeMatches.csrrs ..
  | .csrrc .. => EncodeMatches.csrrc ..
  | .csrrwi .. => EncodeMatches.csrrwi ..
  | .csrrsi .. => EncodeMatches.csrrsi ..
  | .csrrci .. => EncodeMatches.csrrci ..
  | .ebreak => EncodeMatches.ebreak
  | .fence .. => EncodeMatches.fence ..
  | .fenceI .. => EncodeMatches.fenceI ..
  | .mul .. => EncodeMatches.mul ..
  | .mulh .. => EncodeMatches.mulh ..
  | .mulhsu .. => EncodeMatches.mulhsu ..
  | .mulhu .. => EncodeMatches.mulhu ..
  | .div .. => EncodeMatches.div ..
  | .divu .. => EncodeMatches.divu ..
  | .rem .. => EncodeMatches.rem ..
  | .remu .. => EncodeMatches.remu ..

/-- At most one row of the whole table accepts a word (R72). -/
theorem row_eq_of_accepts {r q : Row} {w : Word} (hr : r ∈ patternTable) (hrw : r.accepts w = true)
    (hq : q ∈ patternTable) (hqw : q.accepts w = true) : r = q := by
  have hdisj : patternTable.Pairwise fun r q => r.accepts w = true → q.accepts w = false :=
    patternTable_disjoint.imp fun h hr => Row.not_accepts_of_disjoint h hr
  have hfindr := find_of_pairwise (p := fun r => r.accepts w) hdisj hr hrw
  have hfindq := find_of_pairwise (p := fun r => r.accepts w) hdisj hq hqw
  exact Option.some.inj (hfindr.symm.trans hfindq)

/-- A row that accepts the word of an instruction is of the instruction's group (R70). -/
theorem group_eq_of_accepts_encode {r : Row} {i : Instr} (hr : r ∈ patternTable) (hri : r.accepts (encode i) = true) :
    r.group = i.group := by
  obtain ⟨q, hq, hgroup, hqi, -⟩ := encodeMatches i
  rw [row_eq_of_accepts hr hri hq hqi, hgroup]

/-- A core without the group of an instruction has no row for its word (R8). -/
theorem not_accepts_encode_of_disabled {g : Groups} {i : Instr} (hg : g.has i.group = false) :
    ∀ r ∈ rowsOf g, r.accepts (encode i) = false := by
  intro r hr
  obtain ⟨hmem, hpresent⟩ := mem_rowsOf.mp hr
  by_contra hacc
  rw [group_eq_of_accepts_encode hmem (Bool.eq_true_of_not_eq_false hacc), hg] at hpresent
  exact Bool.false_ne_true hpresent

end Sys2Proof.Laws

namespace Sys2Proof.Machine

/-- A running core that fetches a word no row of its table accepts halts with `DecodeError` and writes nothing (R73, R237). -/
theorem step_halts_of_no_row {s : State} (hrun : s.status = .running) (hplain : PlainRange s s.pc 4)
    (hrows : ∀ r ∈ rowsOf s.params.groups, r.accepts s.fetchWord = false) :
    ∃ t, step s = .next t ∧ OnlyHalts s t (.decodeError s.pc s.fetchWord) := by
  have hfetch : s.plainAccess s.pc .word = true := (State.plainAccess_iff s.pc .word).mpr hplain
  have hnone : decodeWord s.params.groups s.fetchWord = none := (decodeWord_eq_none_iff _ _).mpr hrows
  refine ⟨s.halt (.decodeError s.pc s.fetchWord), ?_, State.halt_onlyHalts _⟩
  rw [step_running hrun, if_pos hfetch, hnone]

/-- Without its group an instruction's word halts the core that fetches it (R8, R73). -/
theorem decodeErrorWithoutGroup (i : Instr) : DecodeErrorWithoutGroup i := by
  intro s hgroup hrun hplain hword
  rw [← hword]
  apply step_halts_of_no_row hrun hplain
  rw [hword]
  exact Laws.not_accepts_encode_of_disabled hgroup

end Sys2Proof.Machine

namespace Sys2Proof

/-- Settles O7: the one row that accepts an instruction's word is of the instruction's group, so a core without the group has no row
for the word, and a step that fetches it halts. -/
theorem disabledGroupRaisesDecodeError : Obligations.DisabledGroupRaisesDecodeError :=
  fun i => ⟨fun _ => Laws.not_accepts_encode_of_disabled, Machine.decodeErrorWithoutGroup i⟩

end Sys2Proof
end

section
/-! The state's invariants and what an instruction leaves alone (R21, R22, R38, R40): one lemma for each over the ways an instruction can
end (`ExecCase`), and from these the rules about every step, the launch and a halted core. -/

namespace Sys2Proof.Machine

variable {s t : State}

/-! ### Going on and trapping -/

@[simp] theorem State.continueAt_mem (npc : Word) : (s.continueAt npc).mem = s.mem := rfl
@[simp] theorem State.continueAt_params (npc : Word) : (s.continueAt npc).params = s.params := rfl

@[simp] theorem State.csr_continueAt (npc : Word) (c : Csr) : (s.continueAt npc).csr c = s.csr c := State.csr_commit ..

/-- Going on forces x0 to 0 and keeps every other register (R21). -/
theorem State.reg_continueAt (npc : Word) (q : RegIdx) :
    (s.continueAt npc).reg q = if q = 0#5 then 0#32 else s.reg q := State.reg_commit ..

/-- A trap writes no CSR but mepc and mcause (R232, R233). -/
theorem State.csr_takeTrap_of_ne (k : Word) {c : Csr} (hepc : c ≠ .mepc) (hcause : c ≠ .mcause) :
    (s.takeTrap k).csr c = s.csr c := by
  cases c with
  | mstatus | mtvec => rfl
  | mepc => exact absurd rfl hepc
  | mcause => exact absurd rfl hcause

/-- A trap handed to `HostResume` writes no CSR (R233). -/
theorem State.csr_takeTrap_of_hostResume (k : Word) {f : ResumeMap} (h : s.params.trapDispatch = .hostResume f) (c : Csr) :
    (s.takeTrap k).csr c = s.csr c := by
  cases c with
  | mstatus | mtvec => rfl
  | mepc | mcause => simp [State.csr, State.dispatchTrap, h]

/-! ### What each way an instruction ends keeps -/

/-- An instruction leaves x0 = 0, or it halts the core and writes no register (R21, R75). -/
theorem ExecCase.reg_zero {i : Instr} (h : ExecCase i s t) :
    t.reg 0#5 = 0#32 ∨ (∃ r, t.status = .halted r) ∧ t.reg 0#5 = s.reg 0#5 := by
  cases h with
  | writes | goes | stores | swaps => exact .inl (by simp [State.reg_continueAt])
  | traps => exact .inl (by simp [State.reg_takeTrap])
  | unmapped | completes => exact .inr ⟨⟨_, rfl⟩, rfl⟩

/-- An instruction leaves memory as it was, or as one `MemWrite` makes it (R42, R130). -/
theorem ExecCase.mem_eq {i : Instr} (h : ExecCase i s t) : t.mem = s.mem ∨ ∃ a n v, t.mem = (s.memWrite a n v).mem := by
  cases h with
  | stores a n v => exact .inr ⟨a, n, v, rfl⟩
  | swaps => exact .inl (by simp)
  | writes | goes | unmapped | traps | completes => exact .inl rfl

/-- An instruction keeps the canonical form of memory (R40). -/
theorem ExecCase.mem_wf {i : Instr} (h : ExecCase i s t) (hwf : Memory.wf s.mem = true) : Memory.wf t.mem = true := by
  obtain hmem | ⟨a, n, v, hmem⟩ := h.mem_eq
  · rwa [hmem]
  · rw [hmem]; exact State.memWrite_wf hwf a n v

/-- An instruction keeps the invariant (R21, R40). -/
theorem ExecCase.coreInv {i : Instr} (h : ExecCase i s t) (hinv : CoreInv s) : CoreInv t := by
  obtain ⟨hzero, hwf⟩ := hinv
  refine ⟨?_, h.mem_wf hwf⟩
  obtain hreg | ⟨-, hreg⟩ := h.reg_zero
  · exact hreg
  · exact hreg.trans hzero

/-- An instruction keeps the parameters (R38). -/
theorem ExecCase.params_eq {i : Instr} (h : ExecCase i s t) : t.params = s.params := by
  cases h with
  | stores | swaps => simp
  | writes | goes | unmapped | traps | completes => rfl

/-- An instruction keeps every register but x0 and its destination (R22). -/
theorem ExecCase.reg_eq_of_ne_dest {i : Instr} (h : ExecCase i s t) {r : RegIdx} (h0 : r ≠ 0#5) (hr : i.dest ≠ some r) :
    t.reg r = s.reg r := by
  have hne : ∀ {rd}, i.dest = some rd → r ≠ rd := fun hd e => hr (e ▸ hd)
  cases h with
  | writes rd v npc hd => rw [State.reg_continueAt, if_neg h0, State.reg_setReg_of_ne _ (hne hd)]
  | swaps rd a c new hd => rw [State.reg_continueAt, if_neg h0, State.reg_setReg_of_ne _ (hne hd), State.reg_setCsr]
  | goes => rw [State.reg_continueAt, if_neg h0]
  | stores => rw [State.reg_continueAt, if_neg h0, State.reg_memWrite]
  | traps => rw [State.reg_takeTrap, if_neg h0]
  | unmapped | completes => rfl

/-- An instruction that changes a CSR is a CSR instruction that names it, or an `ecall` whose dispatch may write it (R30, R232, R233). -/
theorem ExecCase.cause_of_csr_ne {i : Instr} (h : ExecCase i s t) {c : Csr} (hc : t.csr c ≠ s.csr c) :
    (∃ a, i.csrAddr = some a ∧ csrOfAddr a = some c) ∨
    (i = .ecall ∧ (∀ f, s.params.trapDispatch ≠ .hostResume f) ∧ (c = .mepc ∨ c = .mcause)) := by
  cases h with
  | swaps rd a d new _ ha hd =>
    have hcd : c = d := by
      by_contra hne
      exact hc (by simp [State.csr_setCsr_of_ne _ hne])
    exact .inl ⟨a, ha, hcd ▸ hd⟩
  | traps hi =>
    refine .inr ⟨hi, fun f hf => hc (State.csr_takeTrap_of_hostResume _ hf c), ?_⟩
    by_contra hne
    obtain ⟨hepc, hcause⟩ := not_or.mp hne
    exact hc (State.csr_takeTrap_of_ne _ hepc hcause)
  | writes | goes | stores | unmapped | completes => exact absurd (by simp) hc

/-! ### The step -/

/-- A step is an instruction's, or the halt of a word that no row accepts (R73, R75). -/
theorem step_execCase_or_halt (h : step s = .next t) : (∃ i, ExecCase i s t) ∨ ∃ r, t = s.halt r := by
  obtain ⟨-, -, ⟨-, rfl⟩ | ⟨i, -, hexec⟩⟩ := step_cases h
  · exact .inr ⟨_, rfl⟩
  · exact .inl ⟨i, exec_cases hexec⟩

/-- A running core whose plain fetch decodes runs the instruction (R75). -/
theorem step_eq_exec {i : Instr} (hrun : s.status = .running) (hplain : s.plainAccess s.pc .word = true)
    (hdecode : decodeWord s.params.groups s.fetchWord = some i) : step s = exec i s := by
  rw [step_running hrun, if_pos hplain, hdecode]

/-- A running core whose plain fetch matches no row halts (R73). -/
theorem step_eq_decodeError (hrun : s.status = .running) (hplain : s.plainAccess s.pc .word = true)
    (hdecode : decodeWord s.params.groups s.fetchWord = none) :
    step s = .next (s.halt (.decodeError s.pc s.fetchWord)) := by
  rw [step_running hrun, if_pos hplain, hdecode]

/-- No step is refused. -/
theorem step_ne_refused (s : State) (r : Refusal) : step s ≠ .refused r := by
  intro h
  cases hstatus : s.status with
  | halted => rw [step_halted hstatus] at h; cases h
  | running =>
    rw [step_running hstatus] at h
    split at h
    · split at h
      · exact exec_ne_refused _ _ _ h
      · cases h
    · cases h

/-- A burst leaves a halted core as it is (R37, R262). -/
theorem burst_of_halted {r : HaltReason} (h : s.status = .halted r) (n : Nat) : burst n s = .next s := by
  have hstopped : s.isRunning = false := by simp [State.isRunning, h]
  cases n with
  | zero => rfl
  | succ n => simp [burst, hstopped]

/-- Every launch state has the invariant (R39). -/
theorem State.launch_coreInv (l : Launch) : CoreInv (State.launch l) :=
  ⟨by simp [State.reg, State.launch], Memory.wf_ofImage l.memInit⟩

/-! ### Another mstatus

`s.setCsr .mstatus m` is the state `s` with `m` for mstatus. Each shared operation that answers a next state from `s` answers, from
there, the same next state with that mstatus (R31). -/

/-- Only the address 0x300 is that of mstatus (R30). -/
theorem ne_mstatus_of_csrOfAddr {a : CsrAddr} {c : Csr} (h : csrOfAddr a = some c) (ha : a ≠ 0x300#12) : c ≠ .mstatus := by
  rintro rfl
  exact ha (by simpa using (csrOfAddr_eq_some_iff a .mstatus).mp h)

theorem State.setCsr_setMstatus {c : Csr} (hc : c ≠ .mstatus) (v m : Word) :
    (s.setCsr .mstatus m).setCsr c v = (s.setCsr c v).setCsr .mstatus m := by
  cases c with
  | mstatus => exact absurd rfl hc
  | mtvec | mepc | mcause => rfl

theorem State.csr_setMstatus {c : Csr} (hc : c ≠ .mstatus) (m : Word) : (s.setCsr .mstatus m).csr c = s.csr c :=
  State.csr_setCsr_of_ne _ hc m

theorem State.memWrite_setMstatus (m a : Word) (n : Width) (v : Word) :
    (s.setCsr .mstatus m).memWrite a n v = (s.memWrite a n v).setCsr .mstatus m := by
  cases n <;> rfl

theorem State.load_setMstatus (m : Word) {rd rs1 : RegIdx} {imm : Word} {n : Width} {f : Word → Word}
    (h : s.load rd rs1 imm n f = .next t) :
    (s.setCsr .mstatus m).load rd rs1 imm n f = .next (t.setCsr .mstatus m) := by
  unfold State.load at h
  split at h
  · rename_i hplain
    cases h
    exact if_pos hplain
  · cases h

theorem State.store_setMstatus (m : Word) {rs1 rs2 : RegIdx} {imm : Word} {n : Width}
    (h : s.store rs1 rs2 imm n = .next t) :
    (s.setCsr .mstatus m).store rs1 rs2 imm n = .next (t.setCsr .mstatus m) := by
  unfold State.store at h
  split at h
  · rename_i hplain
    cases h
    refine (if_pos hplain).trans ?_
    rw [State.memWrite_setMstatus]
    rfl
  · cases h

theorem State.csrUpdate_setMstatus (m : Word) {inst : Word} {a : CsrAddr} {rd : RegIdx} {f : Word → Word}
    (ha : a ≠ 0x300#12) (h : s.csrUpdate inst a rd f = .next t) :
    (s.setCsr .mstatus m).csrUpdate inst a rd f = .next (t.setCsr .mstatus m) := by
  unfold State.csrUpdate at h ⊢
  split at h
  · rename_i c hc
    have hne := ne_mstatus_of_csrOfAddr hc ha
    cases h
    rw [State.csr_setMstatus hne, State.setCsr_setMstatus hne]
    rfl
  · cases h; rfl

theorem State.dispatchTrap_setMstatus (m kind epc : Word) (h : ∀ n, s.params.trapDispatch ≠ .custom n) :
    (s.setCsr .mstatus m).dispatchTrap kind epc = s.dispatchTrap kind epc := by
  unfold State.dispatchTrap
  rw [State.setCsr_params]
  split
  · rfl
  · rfl
  · rename_i n hn
    exact absurd hn (h n)

theorem State.takeTrap_setMstatus (m kind : Word) (h : ∀ n, s.params.trapDispatch ≠ .custom n) :
    (s.setCsr .mstatus m).takeTrap kind = (s.takeTrap kind).setCsr .mstatus m := by
  simp only [State.takeTrap, State.setCsr_pc, State.dispatchTrap_setMstatus m kind s.pc h]
  rfl

/-- An instruction that does not name mstatus, nor hands an `ecall` to the free dispatch, does not depend on it nor write it (R31). -/
theorem exec_setMstatus (m : Word) {i : Instr} (hcsr : i.csrAddr ≠ some 0x300#12)
    (htrap : i = .ecall → ∀ n, s.params.trapDispatch ≠ .custom n) (h : exec i s = .next t) :
    exec i (s.setCsr .mstatus m) = .next (t.setCsr .mstatus m) := by
  have hne : ∀ {a}, i.csrAddr = some a → a ≠ 0x300#12 := fun ha e => hcsr (e ▸ ha)
  cases i with
  | lb | lh | lw | lbu | lhu => exact State.load_setMstatus m h
  | sb | sh | sw => exact State.store_setMstatus m h
  | csrrw | csrrs | csrrc | csrrwi | csrrsi | csrrci =>
    simp only [exec, execCsrrw, execCsrrs, execCsrrc, execCsrrwi, execCsrrsi, execCsrrci, State.reg_setCsr] at h ⊢
    exact State.csrUpdate_setMstatus m (hne rfl) h
  | ecall =>
    cases h
    exact congrArg Host.Outcome.next (State.takeTrap_setMstatus m _ (htrap rfl))
  | _ => cases h; rfl

end Sys2Proof.Machine

namespace Sys2Proof

open Machine

/-- Settles O43: an instruction keeps x0 = 0 and the canonical memory, and the halt of an unmatched word writes neither. -/
theorem stepKeepsInvariant : Obligations.StepKeepsInvariant := by
  intro s t hinv hstep
  obtain ⟨i, hcase⟩ | ⟨r, rfl⟩ := step_execCase_or_halt hstep
  · exact hcase.coreInv hinv
  · exact hinv

/-- Settles O13: a fault of a step is that of a halted core, of the fetch, or of the decoded instruction's own access. -/
theorem stepStopsOnlyWhereTheSpecHasNoStep : Obligations.StepStopsOnlyWhereTheSpecHasNoStep := by
  refine ⟨step_ne_refused, fun s f hstep => ?_⟩
  obtain hhalted | hfetch | ⟨hrun, hplain, i, hdecode, hexec⟩ := step_fault hstep
  · exact .inl hhalted
  · exact .inr (.inl hfetch)
  · obtain ⟨rs1, imm, n, haccess, hfault, houtside⟩ := exec_fault hexec
    exact .inr (.inr ⟨hrun, hplain, i, rs1, imm, n, hdecode, haccess, hfault, houtside⟩)

/-- Settles O44: every end of an instruction but the halts commits x0 = 0, and a halt leaves no Running core. -/
theorem zeroRegisterAfterEveryInstruction : Obligations.ZeroRegisterAfterEveryInstruction := by
  intro i s t hexec hsame hrun
  obtain hzero | ⟨⟨r, hhalted⟩, -⟩ := (exec_cases hexec).reg_zero
  · exact hzero
  · rw [hsame, hrun] at hhalted
    cases hhalted

/-- Settles O45: no end of an instruction and no halt writes the parameters. -/
theorem stepKeepsParameters : Obligations.StepKeepsParameters := by
  intro s t hstep
  obtain ⟨i, hcase⟩ | ⟨r, rfl⟩ := step_execCase_or_halt hstep
  · exact hcase.params_eq
  · rfl

/-- Settles O46, by the ways an instruction can end. -/
theorem onlyTheDestinationRegisterChanges : Obligations.OnlyTheDestinationRegisterChanges :=
  fun _ _ _ hexec _ h0 hdest => (exec_cases hexec).reg_eq_of_ne_dest h0 hdest

/-- Settles O47: only the CSR swap and the trap write CSR words. -/
theorem csrChangesOnlyByCsrInstructionOrTrap : Obligations.CsrChangesOnlyByCsrInstructionOrTrap := by
  intro i s t c hexec hc
  obtain ⟨a, hnames, haddr⟩ | htrap := (exec_cases hexec).cause_of_csr_ne hc
  · exact .inl ⟨a, hnames, (csrOfAddr_eq_some_iff a c).mp haddr⟩
  · exact .inr htrap

/-- Settles O49: the state with another mstatus fetches the same word, and what runs then commutes with the change of mstatus. -/
theorem mstatusBitsChangeNothing : Obligations.MstatusBitsChangeNothing := by
  intro s t m hstep hcsr htrap
  change step (s.setCsr .mstatus m) = .next (t.setCsr .mstatus m)
  obtain ⟨hrun, hplain, ⟨hdecode, rfl⟩ | ⟨i, hdecode, hexec⟩⟩ := step_cases hstep
  · exact step_eq_decodeError (s := s.setCsr .mstatus m) hrun hplain hdecode
  · rw [step_eq_exec (s := s.setCsr .mstatus m) hrun hplain hdecode]
    exact exec_setMstatus m (hcsr i hdecode) (fun hi => htrap (hi ▸ hdecode)) hexec

/-- Settles O10: a step is asked of a Running core only, and a burst asks none of a halted one. -/
theorem haltedIsFinal : Obligations.HaltedIsFinal :=
  fun _ _ hhalted => ⟨step_halted hhalted, burst_of_halted hhalted⟩

/-- Settles O42: the launch forces x0 to 0 and builds its memory by writes; the reset state is a launch. -/
theorem launchHasInvariant : Obligations.LaunchHasInvariant :=
  ⟨State.launch_coreInv, State.launch_coreInv resetLaunch⟩

end Sys2Proof
end

section
/-! Accesses outside `PLAIN` (R50, R239), and what reads and the next fetch see of a store's bytes (R43, R44, R56): the rules about a store
speak of `StoresBytes`, the frame every store meets. -/

namespace Sys2Proof.Machine

variable {s t : State} {a v npc : Word} {n k : Nat}

/-! ### Accesses outside `PLAIN` -/

/-- A fetch outside `PLAIN` has no step (R239). -/
theorem step_eq_fault_of_not_plainRange (hrun : s.status = .running) (h : ¬ PlainRange s s.pc 4) :
    step s = .fault (.outsidePlain s.pc) := by
  rw [step_running hrun, if_neg (mt (State.plainAccess_iff s.pc .word).mp h)]

/-- A load outside `PLAIN` has no step (R50). -/
theorem State.load_eq_fault {rd rs1 : RegIdx} {imm : Word} {w : Width} {f : Word → Word}
    (h : ¬ PlainRange s (s.effAddr rs1 imm) w.bytes) :
    s.load rd rs1 imm w f = .fault (.outsidePlain (s.effAddr rs1 imm)) :=
  if_neg (mt (State.plainAccess_iff _ _).mp h)

/-- A store outside `PLAIN` has no step (R50). -/
theorem State.store_eq_fault {rs1 rs2 : RegIdx} {imm : Word} {w : Width}
    (h : ¬ PlainRange s (s.effAddr rs1 imm) w.bytes) :
    s.store rs1 rs2 imm w = .fault (.outsidePlain (s.effAddr rs1 imm)) :=
  if_neg (mt (State.plainAccess_iff _ _).mp h)

/-! ### Reads of stored bytes -/

@[simp] theorem State.memRead_continueAt (npc b : Word) (w : Width) : (s.continueAt npc).memRead b w = s.memRead b w := rfl

/-- A byte read inside a store sees that byte of the stored word (R44). -/
theorem StoresBytes.memRead_byte_toNat (h : StoresBytes s t a n v npc) (hk : k < n) :
    (t.memRead (a + BitVec.ofNat 32 k) .byte).toNat = v.toNat / 256 ^ k % 256 := by
  obtain ⟨hbytes, -⟩ := h
  rw [State.memRead_byte_toNat, hbytes k hk]

/-- A half read inside a store sees those two bytes of the stored word, the first the lower (R44). -/
theorem StoresBytes.memRead_half_toNat (h : StoresBytes s t a n v npc) (hk : k + 1 < n) :
    (t.memRead (a + BitVec.ofNat 32 k) .half).toNat = v.toNat / 256 ^ k % 65536 := by
  obtain ⟨hbytes, -⟩ := h
  have hnext : a + BitVec.ofNat 32 k + 1 = a + BitVec.ofNat 32 (k + 1) := by
    rw [BitVec.ofNat_add]
    exact BitVec.add_assoc a (BitVec.ofNat 32 k) 1
  rw [State.memRead_half_toNat, hnext, hbytes k (by omega), hbytes (k + 1) hk, Nat.pow_succ, ← Nat.div_div_eq_div_mul]
  omega

/-- A word read of a stored word is the word (R43). -/
theorem StoresBytes.memRead_word (h : StoresBytes s t a 4 v npc) : t.memRead a .word = v := by
  obtain ⟨hbytes, -⟩ := h
  have h0 : (t.byteAt a).toNat = v.toNat % 256 := by simpa using hbytes 0 (by omega)
  have h1 : (t.byteAt (a + 1)).toNat = v.toNat / 256 % 256 := hbytes 1 (by omega)
  have h2 : (t.byteAt (a + 2)).toNat = v.toNat / 65536 % 256 := hbytes 2 (by omega)
  have h3 : (t.byteAt (a + 3)).toNat = v.toNat / 16777216 % 256 := hbytes 3 (by omega)
  apply BitVec.eq_of_toNat_eq
  rw [State.memRead, wordOfBytes_toNat, h0, h1, h2, h3]
  omega

/-! ### The next fetch -/

/-- The core that fetches an instruction steps as `exec` of it (R75). -/
theorem Fetches.step_eq_exec {i : Instr} (h : Fetches s i) : step s = exec i s := by
  have hdecode := h.decodeWord
  obtain ⟨hrun, hplain, -⟩ := h
  exact Machine.step_eq_exec hrun ((State.plainAccess_iff s.pc .word).mpr hplain) hdecode

/-- Which addresses are plain is a parameter of the core (R50). -/
theorem PlainRange.of_params_eq (hparams : t.params = s.params) (h : PlainRange s a n) : PlainRange t a n := by
  intro k hk
  rw [State.plain, hparams]
  exact h k hk

theorem StoresBytes.pc_eq (h : StoresBytes s t a n v npc) : t.pc = npc := by
  obtain ⟨-, -, -, ⟨hpc, -⟩, -⟩ := h
  exact hpc

/-- After a store of a word at the address the step went on at, the word is what the core fetches (R56). -/
theorem StoresBytes.fetchWord_eq (h : StoresBytes s t a 4 v a) : t.fetchWord = v := by
  rw [State.fetchWord, h.pc_eq, h.memRead_word]

/-- Where that word is an instruction's, the core runs the instruction (R56, R75). -/
theorem StoresBytes.step_eq_exec {i : Instr} (h : StoresBytes s t a 4 v a) (hrun : s.status = .running)
    (hplain : PlainRange s a 4) (hdecode : Sys2Proof.decodeWord s.params.groups v = some i) : step t = exec i t := by
  have hpc := h.pc_eq
  have hfetch := h.fetchWord_eq
  obtain ⟨-, -, -, -, -, hstatus, hparams⟩ := h
  apply Machine.step_eq_exec (hstatus.trans hrun)
  · rw [hpc]
    exact (State.plainAccess_iff a .word).mpr (hplain.of_params_eq hparams)
  · rw [hfetch, hparams, hdecode]

end Sys2Proof.Machine

namespace Sys2Proof

open Machine

/-- Settles O12: no step is refused, and each fault of a running core names a byte that is not plain. -/
theorem runningCoreAlwaysSteps : Obligations.RunningCoreAlwaysSteps := by
  intro s hrun hall
  have hplain : ∀ a n, PlainRange s a n := fun _ _ _ _ => hall _
  cases hstep : step s with
  | next t => exact ⟨t, rfl⟩
  | refused r => exact absurd hstep (step_ne_refused s r)
  | fault f =>
    obtain ⟨r, hhalted, -⟩ | ⟨-, -, hfetch⟩ | ⟨-, -, i, -, hexec⟩ := step_fault hstep
    · rw [hrun] at hhalted; cases hhalted
    · exact absurd (hplain _ _) hfetch
    · obtain ⟨rs1, imm, w, -, -, houtside⟩ := exec_fault hexec
      exact absurd (hplain _ _) houtside

/-- Settles O22: each narrower read is one or two of the four bytes the store wrote. -/
theorem narrowReadsSeeTheWordStored : Obligations.NarrowReadsSeeTheWordStored := by
  intro s a v hwf
  have hstore : StoresBytes s ((s.memWrite a .word v).continueAt s.snpc) a 4 v s.snpc :=
    State.memWrite_storesBytes hwf a .word v s.snpc
  refine ⟨?_, ?_, ?_, ?_, ?_⟩
  · simpa using hstore.memRead_byte_toNat (k := 0) (by omega)
  · exact hstore.memRead_byte_toNat (k := 1) (by omega)
  · simpa using hstore.memRead_half_toNat (k := 0) (by omega)
  · have hupper : v.toNat / 65536 % 65536 = v.toNat / 65536 := by omega
    exact (hstore.memRead_half_toNat (k := 2) (by omega)).trans hupper
  · exact hstore.memRead_word

/-- Settles O23: the store's bytes are the word at the pc it goes on at, and it leaves status and parameters alone. -/
theorem storeToNextInstructionIsFetchedNext : Obligations.StoreToNextInstructionIsFetchedNext := by
  intro s rs1 rs2 imm i hfetches hwf haddr hplain hdecode
  obtain ⟨t, hnext, hstore⟩ := State.store_completes (rs2 := rs2) (n := .word) hwf (haddr ▸ hplain)
  rw [haddr] at hstore
  have hstep : step s = .next t := hfetches.step_eq_exec.trans hnext
  obtain ⟨hrun, -, -⟩ := hfetches
  exact ⟨t, hstep, hstore.pc_eq, hstore.fetchWord_eq, hstore.step_eq_exec hrun hplain hdecode⟩

/-- Settles O11: the fetch, and the load or store of each width, are guarded by `PLAIN` of the bytes of their own width. -/
theorem accessOutsidePlainHasNoStep : Obligations.AccessOutsidePlainHasNoStep := by
  refine ⟨fun s => step_eq_fault_of_not_plainRange, fun s rd rs1 rs2 imm => ⟨fun h => ?byte, fun h => ?half, fun h => ?word⟩⟩
  case byte => exact ⟨State.load_eq_fault h, State.load_eq_fault h, State.store_eq_fault h⟩
  case half => exact ⟨State.load_eq_fault h, State.load_eq_fault h, State.store_eq_fault h⟩
  case word => exact ⟨State.load_eq_fault h, State.store_eq_fault h⟩

end Sys2Proof
end

section
/-! The immediates of a word bit by bit (R63 to R67), and the ranges of the values they can take. -/

namespace Sys2Proof

variable (w : Word)

/-! ### Bits (R63 to R67) -/

theorem immI_getLsbD {k : Nat} (hk : k < 32) : (immI w).getLsbD k = w.getLsbD (min (k + 20) 31) := by
  simp only [immI, BitVec.getLsbD_signExtend, BitVec.msb_eq_getLsbD_last, BitVec.getLsbD_extractLsb']
  interval_cases k <;> simp

theorem immS_getLsbD {k : Nat} (hk : k < 32) :
    (immS w).getLsbD k = if k < 5 then w.getLsbD (k + 7) else w.getLsbD (min (k + 20) 31) := by
  simp only [immS, BitVec.getLsbD_signExtend, BitVec.msb_eq_getLsbD_last, BitVec.getLsbD_append, BitVec.getLsbD_extractLsb']
  interval_cases k <;> simp

theorem immB_getLsbD {k : Nat} (hk : k < 32) :
    (immB w).getLsbD k = if k = 0 then false else if k < 5 then w.getLsbD (k + 7) else if k < 11 then w.getLsbD (k + 20)
      else if k = 11 then w.getLsbD 7 else w.getLsbD 31 := by
  simp only [immB, BitVec.getLsbD_signExtend, BitVec.msb_eq_getLsbD_last, BitVec.getLsbD_append, BitVec.getLsbD_extractLsb']
  interval_cases k <;> simp

theorem immU_getLsbD {k : Nat} (hk : k < 32) : (immU w).getLsbD k = if k < 12 then false else w.getLsbD k := by
  simp only [immU, BitVec.getLsbD_append, BitVec.getLsbD_extractLsb']
  interval_cases k <;> simp

theorem immJ_getLsbD {k : Nat} (hk : k < 32) :
    (immJ w).getLsbD k = if k = 0 then false else if k < 11 then w.getLsbD (k + 20) else if k = 11 then w.getLsbD 20
      else if k < 20 then w.getLsbD k else w.getLsbD 31 := by
  simp only [immJ, BitVec.getLsbD_signExtend, BitVec.msb_eq_getLsbD_last, BitVec.getLsbD_append, BitVec.getLsbD_extractLsb']
  interval_cases k <;> simp

theorem immB_getLsbD_zero : (immB w).getLsbD 0 = false := immB_getLsbD w (by omega)

theorem immJ_getLsbD_zero : (immJ w).getLsbD 0 = false := immJ_getLsbD w (by omega)

/-! ### Ranges (R63 to R67) -/

/-- The readings of a sign-extended field are those of the field. -/
theorem toInt_signExtend_range {n : Nat} (b : BitVec n) (hn : n ≤ 32) :
    -2 ^ (n - 1) ≤ (b.signExtend 32).toInt ∧ (b.signExtend 32).toInt < 2 ^ (n - 1) := by
  rw [BitVec.toInt_signExtend_of_le hn]
  exact ⟨BitVec.le_toInt b, BitVec.toInt_lt⟩

/-- A word with bit 0 clear is even. -/
theorem toInt_emod_two {v : Word} (h : v.getLsbD 0 = false) : v.toInt % 2 = 0 := by
  have hbit : v.toNat % 2 = 0 := by simpa [BitVec.getLsbD, Nat.testBit_zero] using h
  have hcond := BitVec.toInt_eq_toNat_cond v
  split_ifs at hcond <;> omega

theorem immI_range : -2048 ≤ (immI w).toInt ∧ (immI w).toInt ≤ 2047 := by
  obtain ⟨hlo, hhi⟩ := toInt_signExtend_range (w.extractLsb' 20 12) (by omega)
  exact ⟨hlo, Int.lt_add_one_iff.mp hhi⟩

theorem immS_range : -2048 ≤ (immS w).toInt ∧ (immS w).toInt ≤ 2047 := by
  obtain ⟨hlo, hhi⟩ := toInt_signExtend_range (w.extractLsb' 25 7 ++ w.extractLsb' 7 5) (by omega)
  exact ⟨hlo, Int.lt_add_one_iff.mp hhi⟩

theorem immB_range : -4096 ≤ (immB w).toInt ∧ (immB w).toInt ≤ 4094 ∧ (immB w).toInt % 2 = 0 := by
  have heven : (immB w).toInt % 2 = 0 := toInt_emod_two (immB_getLsbD_zero w)
  obtain ⟨hlo, hhi⟩ : -4096 ≤ (immB w).toInt ∧ (immB w).toInt < 4096 := toInt_signExtend_range _ (by omega)
  omega

theorem immJ_range : -1048576 ≤ (immJ w).toInt ∧ (immJ w).toInt ≤ 1048574 ∧ (immJ w).toInt % 2 = 0 := by
  have heven : (immJ w).toInt % 2 = 0 := toInt_emod_two (immJ_getLsbD_zero w)
  obtain ⟨hlo, hhi⟩ : -1048576 ≤ (immJ w).toInt ∧ (immJ w).toInt < 1048576 := toInt_signExtend_range _ (by omega)
  omega

/-- Settles O5: each bit by its place in the layout; the ranges are those of the field that is sign-extended, and the offsets are even
because their bit 0 is the layout's constant 0. -/
theorem immediatesTakeTheirBitsFromTheWord : Obligations.ImmediatesTakeTheirBitsFromTheWord :=
  fun w _ hk => ⟨immI_getLsbD w hk, immS_getLsbD w hk, immB_getLsbD w hk, immU_getLsbD w hk, immJ_getLsbD w hk,
    immI_range w, immS_range w, immB_range w, immJ_range w⟩

/-! ### An immediate read from a word can be encoded (R69) -/

theorem fitsImm12_immI : fitsImm12 (immI w) = true := by simpa [fitsImm12] using immI_range w

theorem fitsImm12_immS : fitsImm12 (immS w) = true := by simpa [fitsImm12] using immS_range w

theorem fitsOffsetB_immB : fitsOffsetB (immB w) = true := by
  obtain ⟨hlo, hhi, -⟩ := immB_range w
  simp only [fitsOffsetB, hlo, hhi, immB_getLsbD_zero, decide_true, Bool.not_false, Bool.and_self]

theorem fitsOffsetJ_immJ : fitsOffsetJ (immJ w) = true := by
  obtain ⟨hlo, hhi, -⟩ := immJ_range w
  simp only [fitsOffsetJ, hlo, hhi, immJ_getLsbD_zero, decide_true, Bool.not_false, Bool.and_self]

theorem fitsImmU_immU : fitsImmU (immU w) = true := by
  simp only [fitsImmU, beq_iff_eq]
  apply BitVec.eq_of_getLsbD_eq
  intro k hk
  simp [immU_getLsbD w (by omega : k < 32), hk]

end Sys2Proof
end

section
/-! What the decoder reads encodes back to the word (R69): the fields of a word, put together in any layout, are the word; so a row that
accepts the word rebuilds it from the operands it extracts. -/

namespace Sys2Proof

/-! ### The fields of a word, put together, are the word (R61) -/

variable {w : Word} {op f7 : BitVec 7} {f3 : BitVec 3}

theorem encodeR_of_fields (h : (w.extractLsb' 0 7 = op ∧ w.extractLsb' 12 3 = f3) ∧ w.extractLsb' 25 7 = f7) :
    encodeR f7 (rs2Of w) (rs1Of w) f3 (rdOf w) op = w := by
  obtain ⟨⟨rfl, rfl⟩, rfl⟩ := h
  apply BitVec.eq_of_getLsbD_eq
  intro k hk
  simp only [encodeR_getLsbD, rs2Of, rs1Of, rdOf, BitVec.getLsbD_extractLsb']
  interval_cases k <;> rfl

theorem encodeI_of_fields (h : w.extractLsb' 0 7 = op ∧ w.extractLsb' 12 3 = f3) :
    encodeI (immI w) (rs1Of w) f3 (rdOf w) op = w := by
  obtain ⟨rfl, rfl⟩ := h
  apply BitVec.eq_of_getLsbD_eq
  intro k hk
  simp (disch := omega) only [encodeI_getLsbD, immI_getLsbD, rs1Of, rdOf, BitVec.getLsbD_extractLsb']
  interval_cases k <;> rfl

theorem encodeS_of_fields (h : w.extractLsb' 0 7 = op ∧ w.extractLsb' 12 3 = f3) :
    encodeS (immS w) (rs2Of w) (rs1Of w) f3 op = w := by
  obtain ⟨rfl, rfl⟩ := h
  apply BitVec.eq_of_getLsbD_eq
  intro k hk
  simp (disch := omega) only [encodeS_getLsbD, immS_getLsbD, rs2Of, rs1Of, BitVec.getLsbD_extractLsb']
  interval_cases k <;> rfl

theorem encodeB_of_fields (h : w.extractLsb' 0 7 = op ∧ w.extractLsb' 12 3 = f3) :
    encodeB (immB w) (rs2Of w) (rs1Of w) f3 op = w := by
  obtain ⟨rfl, rfl⟩ := h
  apply BitVec.eq_of_getLsbD_eq
  intro k hk
  have himm (j : Nat) (hj : j < 32) := immB_getLsbD w hj
  rw [encodeB_getLsbD, himm 11 (by omega), himm 12 (by omega), himm (k - 7) (by omega), himm (k - 20) (by omega)]
  simp only [rs2Of, rs1Of, BitVec.getLsbD_extractLsb']
  interval_cases k <;> rfl

theorem encodeU_of_fields (h : w.extractLsb' 0 7 = op) : encodeU (immU w) (rdOf w) op = w := by
  subst h
  apply BitVec.eq_of_getLsbD_eq
  intro k hk
  simp (disch := omega) only [encodeU_getLsbD, immU_getLsbD, rdOf, BitVec.getLsbD_extractLsb']
  interval_cases k <;> rfl

theorem encodeJ_of_fields (h : w.extractLsb' 0 7 = op) : encodeJ (immJ w) (rdOf w) op = w := by
  subst h
  apply BitVec.eq_of_getLsbD_eq
  intro k hk
  simp (disch := omega) only [encodeJ_getLsbD, immJ_getLsbD, rdOf, BitVec.getLsbD_extractLsb']
  interval_cases k <;> rfl

theorem encodeCsr_of_fields (h : w.extractLsb' 0 7 = 0x73#7 ∧ w.extractLsb' 12 3 = f3) :
    encodeCsr (csrOf w) (rs1Of w) f3 (rdOf w) = w := by
  obtain ⟨hop, rfl⟩ := h
  apply BitVec.eq_of_getLsbD_eq
  intro k hk
  simp only [encodeCsr_getLsbD, ← hop, csrOf, rs1Of, rdOf, BitVec.getLsbD_extractLsb']
  interval_cases k <;> simp

theorem encode_fence_of_fields (h : w.extractLsb' 0 7 = 0x0F#7 ∧ w.extractLsb' 12 3 = 0b000#3) :
    encode (.fence (fmOf w) (predOf w) (succOf w) (rs1Of w) (rdOf w)) = w := by
  obtain ⟨hop, hf3⟩ := h
  rw [encode, ← hop, ← hf3]
  apply BitVec.eq_of_getLsbD_eq
  intro k hk
  simp only [fmOf, predOf, succOf, rs1Of, rdOf, BitVec.getLsbD_append, BitVec.getLsbD_extractLsb']
  interval_cases k <;> rfl

/-! ### What a row fixes of the words it accepts (R71) -/

variable {r : Row}

theorem Row.accepts_iff_op (hmask : r.mask = 0x0000007F#32) (hpat : r.pattern &&& 0x0000007F#32 = r.pattern) {w : Word} :
    r.accepts w = true ↔ w.extractLsb' 0 7 = r.pattern.extractLsb' 0 7 := by
  rw [Row.accepts, beq_iff_eq, hmask, and_mask_op w r.pattern hpat]

theorem Row.accepts_iff_op_f3 (hmask : r.mask = 0x0000707F#32) (hpat : r.pattern &&& 0x0000707F#32 = r.pattern) {w : Word} :
    r.accepts w = true ↔ w.extractLsb' 0 7 = r.pattern.extractLsb' 0 7 ∧ w.extractLsb' 12 3 = r.pattern.extractLsb' 12 3 := by
  rw [Row.accepts, beq_iff_eq, hmask, and_mask_op_f3 w r.pattern hpat]

theorem Row.accepts_iff_op_f3_f7 (hmask : r.mask = 0xFE00707F#32) (hpat : r.pattern &&& 0xFE00707F#32 = r.pattern) {w : Word} :
    r.accepts w = true ↔ (w.extractLsb' 0 7 = r.pattern.extractLsb' 0 7 ∧ w.extractLsb' 12 3 = r.pattern.extractLsb' 12 3) ∧
      w.extractLsb' 25 7 = r.pattern.extractLsb' 25 7 := by
  rw [Row.accepts, beq_iff_eq, hmask, and_mask_op_f3_f7 w r.pattern hpat]

theorem Row.accepts_iff_eq (hmask : r.mask = 0xFFFFFFFF#32) {w : Word} : r.accepts w = true ↔ w = r.pattern := by
  rw [Row.accepts, beq_iff_eq, hmask, show 0xFFFFFFFF#32 = BitVec.allOnes 32 from rfl, BitVec.and_allOnes]

/-! ### Rows rebuild the words they accept (R69) -/

/-- What the row reads from a word it accepts is well-formed and encodes to the very word. -/
def Row.Rebuilds (r : Row) : Prop :=
  ∀ w, r.accepts w = true → (r.build w).wellFormed = true ∧ encode (r.build w) = w

theorem tableJumps_rebuild : ∀ r ∈ tableJumps, r.Rebuilds := by
  intro r hr w hw
  fin_cases hr
  iterate 2 · exact ⟨fitsImmU_immU w, encodeU_of_fields ((Row.accepts_iff_op rfl rfl).mp hw)⟩
  · exact ⟨fitsOffsetJ_immJ w, encodeJ_of_fields ((Row.accepts_iff_op rfl rfl).mp hw)⟩
  · exact ⟨fitsImm12_immI w, encodeI_of_fields ((Row.accepts_iff_op_f3 rfl rfl).mp hw)⟩

theorem tableBranches_rebuild : ∀ r ∈ tableBranches, r.Rebuilds := by
  intro r hr w hw
  fin_cases hr <;> exact ⟨fitsOffsetB_immB w, encodeB_of_fields ((Row.accepts_iff_op_f3 rfl rfl).mp hw)⟩

theorem tableLoadStore_rebuild : ∀ r ∈ tableLoadStore, r.Rebuilds := by
  intro r hr w hw
  fin_cases hr
  iterate 5 · exact ⟨fitsImm12_immI w, encodeI_of_fields ((Row.accepts_iff_op_f3 rfl rfl).mp hw)⟩
  iterate 3 · exact ⟨fitsImm12_immS w, encodeS_of_fields ((Row.accepts_iff_op_f3 rfl rfl).mp hw)⟩

theorem tableOpImm_rebuild : ∀ r ∈ tableOpImm, r.Rebuilds := by
  intro r hr w hw
  fin_cases hr
  iterate 6 · exact ⟨fitsImm12_immI w, encodeI_of_fields ((Row.accepts_iff_op_f3 rfl rfl).mp hw)⟩
  iterate 3 · exact ⟨rfl, encodeR_of_fields ((Row.accepts_iff_op_f3_f7 rfl rfl).mp hw)⟩

theorem tableOp_rebuild : ∀ r ∈ tableOp, r.Rebuilds := by
  intro r hr w hw
  fin_cases hr <;> exact ⟨rfl, encodeR_of_fields ((Row.accepts_iff_op_f3_f7 rfl rfl).mp hw)⟩

theorem tableSystem_rebuild : ∀ r ∈ tableSystem, r.Rebuilds := by
  intro r hr w hw
  fin_cases hr
  iterate 2 · exact ⟨rfl, ((Row.accepts_iff_eq rfl).mp hw).symm⟩
  iterate 2 · exact ⟨rfl, encodeCsr_of_fields ((Row.accepts_iff_op_f3 rfl rfl).mp hw)⟩

theorem tableOptional_rebuild : ∀ r ∈ tableOptional, r.Rebuilds := by
  intro r hr w hw
  fin_cases hr
  iterate 4 · exact ⟨rfl, encodeCsr_of_fields ((Row.accepts_iff_op_f3 rfl rfl).mp hw)⟩
  · exact ⟨rfl, ((Row.accepts_iff_eq rfl).mp hw).symm⟩
  · exact ⟨rfl, encode_fence_of_fields ((Row.accepts_iff_op_f3 rfl rfl).mp hw)⟩
  · exact ⟨fitsImm12_immI w, encodeI_of_fields ((Row.accepts_iff_op_f3 rfl rfl).mp hw)⟩

theorem tableMulDiv_rebuild : ∀ r ∈ tableMulDiv, r.Rebuilds := by
  intro r hr w hw
  fin_cases hr <;> exact ⟨rfl, encodeR_of_fields ((Row.accepts_iff_op_f3_f7 rfl rfl).mp hw)⟩

theorem patternTable_rebuild : ∀ r ∈ patternTable, r.Rebuilds := by
  simp only [patternTable, List.forall_mem_append]
  exact ⟨⟨⟨⟨⟨⟨⟨tableJumps_rebuild, tableBranches_rebuild⟩, tableLoadStore_rebuild⟩, tableOpImm_rebuild⟩, tableOp_rebuild⟩,
    tableSystem_rebuild⟩, tableOptional_rebuild⟩, tableMulDiv_rebuild⟩

/-- The instruction a row reads is of the row's group (R70). -/
theorem group_build {r : Row} (hr : r ∈ patternTable) (w : Word) : (r.build w).group = r.group := by
  fin_cases hr <;> rfl

/-- Settles O1: the row of `Laws.encodeMatches` is present where the group is, accepts the word and rebuilds the instruction. -/
theorem decodeOfEncodeIsTheInstruction : Obligations.DecodeOfEncodeIsTheInstruction := by
  intro g i hwf hg
  obtain ⟨r, hr, hgroup, haccepts, hbuild⟩ := Laws.encodeMatches i
  exact (decodeWord_eq_some_iff g _ i).mpr ⟨r, hr, by rw [hgroup, hg], haccepts, hbuild hwf⟩

/-- Settles O2: the instruction is built by a row that accepts the word, and each row rebuilds the words it accepts. -/
theorem encodeOfDecodeIsTheWord : Obligations.EncodeOfDecodeIsTheWord := by
  intro g w i hdecode
  obtain ⟨r, hr, hg, haccepts, rfl⟩ := (decodeWord_eq_some_iff g w i).mp hdecode
  obtain ⟨hwf, hencode⟩ := patternTable_rebuild r hr w haccepts
  exact ⟨hwf, by rw [group_build hr, hg], hencode⟩

end Sys2Proof
end

section
/-! The pattern table and the opcode map (R76, R77): the map puts each row's mnemonic where the row accepts, and each place of the map has
a row, so the scan and the map agree. -/

namespace Sys2Proof

variable {g : Groups} {w : Word} {m : String} {r : Row}

/-- A row that is present accepts the word, and has this mnemonic. -/
def AcceptedAs (g : Groups) (w : Word) (m : String) : Prop := ∃ r ∈ rowsOf g, r.accepts w = true ∧ r.mnemonic = m

theorem rowMnemonic_eq_some_iff : rowMnemonic g w = some m ↔ AcceptedAs g w m := by
  simp only [rowMnemonic, Option.map_eq_some_iff, find_rowsOf_eq_some_iff, and_assoc, AcceptedAs]

theorem rowMnemonic_eq_none_iff : rowMnemonic g w = none ↔ decodeWord g w = none := by
  simp only [rowMnemonic, decodeWord, Option.map_eq_none_iff]

/-! ### Every row is in the map (R76) -/

/-- The opcode map gives the row's mnemonic for every word the row accepts, where the row's group is present. -/
def Row.IsInMap (r : Row) : Prop := ∀ g w, g.has r.group = true → r.accepts w = true → opcodeMap g w = some r.mnemonic

theorem tableJumps_isInMap : ∀ r ∈ tableJumps, r.IsInMap := by
  intro r hr g w _ hw
  fin_cases hr
  iterate 3
    · have hop := (Row.accepts_iff_op rfl rfl).mp hw
      simp [opcodeMap, hop]
  · obtain ⟨hop, hf3⟩ := (Row.accepts_iff_op_f3 rfl rfl).mp hw
    simp [opcodeMap, hop, hf3]

theorem tableBranches_isInMap : ∀ r ∈ tableBranches, r.IsInMap := by
  intro r hr g w _ hw
  fin_cases hr <;>
    (obtain ⟨hop, hf3⟩ := (Row.accepts_iff_op_f3 rfl rfl).mp hw
     simp [opcodeMap, hop, hf3])

theorem tableLoadStore_isInMap : ∀ r ∈ tableLoadStore, r.IsInMap := by
  intro r hr g w _ hw
  fin_cases hr <;>
    (obtain ⟨hop, hf3⟩ := (Row.accepts_iff_op_f3 rfl rfl).mp hw
     simp [opcodeMap, hop, hf3])

theorem tableOpImm_isInMap : ∀ r ∈ tableOpImm, r.IsInMap := by
  intro r hr g w _ hw
  fin_cases hr
  iterate 6
    · obtain ⟨hop, hf3⟩ := (Row.accepts_iff_op_f3 rfl rfl).mp hw
      simp [opcodeMap, hop, hf3]
  iterate 3
    · obtain ⟨⟨hop, hf3⟩, hf7⟩ := (Row.accepts_iff_op_f3_f7 rfl rfl).mp hw
      simp [opcodeMap, hop, hf3, hf7]

theorem tableOp_isInMap : ∀ r ∈ tableOp, r.IsInMap := by
  intro r hr g w _ hw
  fin_cases hr <;>
    (obtain ⟨⟨hop, hf3⟩, hf7⟩ := (Row.accepts_iff_op_f3_f7 rfl rfl).mp hw
     simp [opcodeMap, hop, hf3, hf7])

theorem tableSystem_isInMap : ∀ r ∈ tableSystem, r.IsInMap := by
  intro r hr g w _ hw
  fin_cases hr
  iterate 2
    · rw [(Row.accepts_iff_eq rfl).mp hw]
      rfl
  iterate 2
    · obtain ⟨hop, hf3⟩ := (Row.accepts_iff_op_f3 rfl rfl).mp hw
      simp [opcodeMap, hop, hf3]

theorem tableOptional_isInMap : ∀ r ∈ tableOptional, r.IsInMap := by
  intro r hr g w hg hw
  fin_cases hr
  iterate 4
    · obtain ⟨hop, hf3⟩ := (Row.accepts_iff_op_f3 rfl rfl).mp hw
      simpa [opcodeMap, hop, hf3, Groups.has] using hg
  · rw [(Row.accepts_iff_eq rfl).mp hw]
    exact if_pos hg
  iterate 2
    · obtain ⟨hop, hf3⟩ := (Row.accepts_iff_op_f3 rfl rfl).mp hw
      simpa [opcodeMap, hop, hf3, Groups.has] using hg

theorem tableMulDiv_isInMap : ∀ r ∈ tableMulDiv, r.IsInMap := by
  intro r hr g w hg hw
  fin_cases hr <;>
    (obtain ⟨⟨hop, hf3⟩, hf7⟩ := (Row.accepts_iff_op_f3_f7 rfl rfl).mp hw
     simpa [opcodeMap, hop, hf3, hf7, Groups.has] using hg)

theorem patternTable_isInMap : ∀ r ∈ patternTable, r.IsInMap := by
  simp only [patternTable, List.forall_mem_append]
  exact ⟨⟨⟨⟨⟨⟨⟨tableJumps_isInMap, tableBranches_isInMap⟩, tableLoadStore_isInMap⟩, tableOpImm_isInMap⟩, tableOp_isInMap⟩,
    tableSystem_isInMap⟩, tableOptional_isInMap⟩, tableMulDiv_isInMap⟩

/-! ### Every place of the map has a row (R76, R77) -/

/-- The first row of the table with this mnemonic. -/
def rowNamed (m : String) : Option Row := patternTable.find? fun r => r.mnemonic == m

theorem AcceptedAs.of_rowNamed (hrow : rowNamed m = some r) (hg : g.has r.group = true) (hw : r.accepts w = true) :
    AcceptedAs g w m :=
  ⟨r, mem_rowsOf.mpr ⟨List.mem_of_find?_eq_some hrow, hg⟩, hw, by simpa using List.find?_some hrow⟩

theorem AcceptedAs.of_op (hrow : rowNamed m = some r) (hg : g.has r.group = true)
    (hmask : r.mask = 0x0000007F#32) (hpat : r.pattern &&& 0x0000007F#32 = r.pattern)
    (hop : (w.extractLsb' 0 7).toNat = (r.pattern.extractLsb' 0 7).toNat) : AcceptedAs g w m :=
  .of_rowNamed hrow hg ((Row.accepts_iff_op hmask hpat).mpr (BitVec.eq_of_toNat_eq hop))

theorem AcceptedAs.of_op_f3 (hrow : rowNamed m = some r) (hg : g.has r.group = true)
    (hmask : r.mask = 0x0000707F#32) (hpat : r.pattern &&& 0x0000707F#32 = r.pattern)
    (hop : (w.extractLsb' 0 7).toNat = (r.pattern.extractLsb' 0 7).toNat)
    (hf3 : (w.extractLsb' 12 3).toNat = (r.pattern.extractLsb' 12 3).toNat) : AcceptedAs g w m :=
  .of_rowNamed hrow hg ((Row.accepts_iff_op_f3 hmask hpat).mpr ⟨BitVec.eq_of_toNat_eq hop, BitVec.eq_of_toNat_eq hf3⟩)

theorem AcceptedAs.of_op_f3_f7 (hrow : rowNamed m = some r) (hg : g.has r.group = true)
    (hmask : r.mask = 0xFE00707F#32) (hpat : r.pattern &&& 0xFE00707F#32 = r.pattern)
    (hop : (w.extractLsb' 0 7).toNat = (r.pattern.extractLsb' 0 7).toNat)
    (hf3 : (w.extractLsb' 12 3).toNat = (r.pattern.extractLsb' 12 3).toNat)
    (hf7 : (w.extractLsb' 25 7).toNat = (r.pattern.extractLsb' 25 7).toNat) : AcceptedAs g w m :=
  .of_rowNamed hrow hg ((Row.accepts_iff_op_f3_f7 hmask hpat).mpr
    ⟨⟨BitVec.eq_of_toNat_eq hop, BitVec.eq_of_toNat_eq hf3⟩, BitVec.eq_of_toNat_eq hf7⟩)

theorem AcceptedAs.of_eq (hrow : rowNamed m = some r) (hg : g.has r.group = true) (hmask : r.mask = 0xFFFFFFFF#32)
    (hw : w = r.pattern) : AcceptedAs g w m :=
  .of_rowNamed hrow hg ((Row.accepts_iff_eq hmask).mpr hw)

/-- What the opcode map names, a row accepts. The cases are the map's: the major opcodes in its order, in each the values of funct3 and
funct7, and in these the groups. -/
theorem acceptedAs_of_opcodeMap (h : opcodeMap g w = some m) : AcceptedAs g w m := by
  simp only [opcodeMap] at h
  split at h
  -- lui, auipc, jal; jalr; branches, loads, stores
  case h_1 hop | h_2 hop | h_3 hop => cases h; exact .of_op rfl rfl rfl rfl hop
  case h_4 hop => split at h <;> cases h; exact .of_op_f3 rfl rfl rfl rfl hop ‹_›
  case h_5 hop | h_6 hop | h_7 hop => split at h <;> cases h <;> exact .of_op_f3 rfl rfl rfl rfl hop ‹_›
  -- OP-IMM: the shifts fix funct7 too
  case h_8 hop =>
    split at h
    case h_7 hf3 => split at h <;> cases h; exact .of_op_f3_f7 rfl rfl rfl rfl hop hf3 ‹_›
    case h_8 hf3 =>
      split at h
      · cases h; exact .of_op_f3_f7 rfl rfl rfl rfl hop hf3 ‹_›
      · split at h <;> cases h; exact .of_op_f3_f7 rfl rfl rfl rfl hop hf3 ‹_›
    all_goals cases h <;> exact .of_op_f3 rfl rfl rfl rfl hop ‹_›
  -- OP, and after its ten rows the eight of the M group
  case h_9 hop =>
    split at h
    case h_19 => cases h
    case h_11 | h_12 | h_13 | h_14 | h_15 | h_16 | h_17 | h_18 =>
      split at h <;> cases h; exact .of_op_f3_f7 rfl ‹_› rfl rfl hop ‹_› ‹_›
    all_goals cases h; exact .of_op_f3_f7 rfl rfl rfl rfl hop ‹_› ‹_›
  -- SYSTEM: the whole words, the core CSR rows, the rows of EXT_CSR_FULL
  case h_10 hop =>
    split at h
    case h_1 =>
      split_ifs at h with hecall hmret hebreak hg <;> cases h
      · exact .of_eq rfl rfl rfl hecall
      · exact .of_eq rfl rfl rfl hmret
      · exact .of_eq rfl hg rfl hebreak
    case h_2 hf3 | h_3 hf3 => cases h; exact .of_op_f3 rfl rfl rfl rfl hop hf3
    case h_8 => cases h
    all_goals split at h <;> cases h; exact .of_op_f3 rfl ‹_› rfl rfl hop ‹_›
  -- MISC-MEM
  case h_11 hop =>
    split at h
    case h_3 => cases h
    all_goals split at h <;> cases h; exact .of_op_f3 rfl ‹_› rfl rfl hop ‹_›
  -- no major opcode of the map
  case h_12 => cases h

/-- The scan and the map name the same mnemonic for every word. -/
theorem rowMnemonic_eq_opcodeMap (g : Groups) (w : Word) : rowMnemonic g w = opcodeMap g w := by
  ext m
  rw [rowMnemonic_eq_some_iff]
  constructor
  · rintro ⟨r, hr, hw, rfl⟩
    obtain ⟨hmem, hg⟩ := mem_rowsOf.mp hr
    exact patternTable_isInMap r hmem g w hg hw
  · exact acceptedAs_of_opcodeMap

/-- Settles O4: the row that accepts a word is in the map under its mnemonic, and what the map names a row accepts. -/
theorem patternTableIsTheOpcodeMap : Obligations.PatternTableIsTheOpcodeMap :=
  fun g w => ⟨rowMnemonic_eq_opcodeMap g w, by rw [← rowMnemonic_eq_opcodeMap, rowMnemonic_eq_none_iff]⟩

end Sys2Proof
end

section
/-! One row or none for each word, the step on a decoded and on an unmatched word (R73 to R75), and the hints (R78). -/

namespace Sys2Proof.Machine

variable {s : State}

/-- A word is the fetched one where its value is that of the four bytes at the pc, little-endian (R43, R45). -/
theorem State.fetchWord_eq_of_toNat {w : Word}
    (hw : w.toNat = (s.byteAt s.pc).toNat + 256 * (s.byteAt (s.pc + 1)).toNat + 65536 * (s.byteAt (s.pc + 2)).toNat
      + 16777216 * (s.byteAt (s.pc + 3)).toNat) : s.fetchWord = w := by
  apply BitVec.eq_of_toNat_eq
  rw [State.fetchWord, State.memRead, wordOfBytes_toNat]
  omega

/-- An OP or OP-IMM instruction writes its destination and goes on at `pc + 4`, and nothing else (R100, R103 to R121, R211 to R218). -/
theorem exec_eq_retire {i : Instr} (h : i.isOpOrOpImm = true) : ∃ rd v, i.dest = some rd ∧ exec i s = s.retire rd v := by
  cases i with
  | addi rd | slti rd | sltiu rd | xori rd | ori rd | andi rd | slli rd | srli rd | srai rd
  | add rd | sub rd | sll rd | slt rd | sltu rd | xor rd | srl rd | sra rd | or rd | and rd
  | mul rd | mulh rd | mulhsu rd | mulhu rd | div rd | divu rd | rem rd | remu rd => exact ⟨rd, _, rfl, rfl⟩
  | _ => cases h

/-- A write to x0, which the commit forces back to 0, leaves the registers as they were where x0 is 0 (R21). -/
theorem State.retire_zero (h : s.reg 0#5 = 0#32) (v : Word) :
    s.retire 0#5 v = .next { s with pc := s.pc + 4, result := some (.continued (s.pc + 4)) } := by
  have hx : (s.x.set 0 v).set 0 0#32 = s.x := by
    rw [Vector.set_set, ← h]
    exact Vector.set_getElem_self ..
  change Host.Outcome.next { s with x := (s.x.set 0 v).set 0 0#32, pc := s.pc + 4, result := some (.continued (s.pc + 4)) } = _
  rw [hx]

end Sys2Proof.Machine

namespace Sys2Proof

open Machine

/-- Two places of a core's rows that accept the same word are one place (R72, R74). -/
theorem rowsOf_index_unique {g : Groups} {w : Word} {j k : Fin (rowsOf g).length} (hj : (rowsOf g)[j].accepts w = true)
    (hk : (rowsOf g)[k].accepts w = true) : j = k := by
  have hrejects := List.pairwise_iff_getElem.mp (rowsOf_disjoint g w)
  obtain hlt | heq | hlt := lt_trichotomy j k
  · exact absurd hk (Bool.eq_false_iff.mp (hrejects j k j.isLt k.isLt hlt hj))
  · exact heq
  · exact absurd hj (Bool.eq_false_iff.mp (hrejects k j k.isLt j.isLt hlt hk))

/-- Settles O3: a row that accepts the word is the only one and the one the scan takes; where there is none, the core halts. -/
theorem wordMatchesOneRowOrRaisesDecodeError : Obligations.WordMatchesOneRowOrRaisesDecodeError := by
  intro g w
  by_cases hrow : ∃ k : Fin (rowsOf g).length, (rowsOf g)[k].accepts w = true
  · obtain ⟨k, hk⟩ := hrow
    obtain ⟨hmem, hg⟩ := mem_rowsOf.mp (List.getElem_mem k.isLt)
    exact .inl ⟨k, hk, fun _ hj => rowsOf_index_unique hj hk, (decodeWord_eq_some_iff g w _).mpr ⟨_, hmem, hg, hk, rfl⟩⟩
  · have hrejects : ∀ r ∈ rowsOf g, r.accepts w = false := by
      intro r hr
      obtain ⟨k, hk, rfl⟩ := List.getElem_of_mem hr
      exact Bool.eq_false_iff.mpr fun hw => hrow ⟨⟨k, hk⟩, hw⟩
    refine .inr ⟨hrejects, (decodeWord_eq_none_iff g w).mpr hrejects, ?_⟩
    rintro s hrun hplain rfl rfl
    exact step_halts_of_no_row hrun hplain hrejects

/-- Settles O19: the instruction only writes its destination, which is x0. -/
theorem hintsChangeOnlyThePc : Obligations.HintsChangeOnlyThePc := by
  intro i s hop hdest hzero
  obtain ⟨rd, v, hrd, hexec⟩ := exec_eq_retire (s := s) hop
  obtain rfl : rd = 0#5 := by rw [hdest] at hrd; exact (Option.some.inj hrd).symm
  rw [hexec, State.retire_zero hzero]

/-- Settles O6: each word is the encoding of its instruction, of a group that is present; `ebreak` has no row without its group. -/
theorem writtenOutWordsDecode : Obligations.WrittenOutWordsDecode := by
  have hdecode := decodeOfEncodeIsTheInstruction
  refine ⟨hdecode _ (.addi 6 5 (-3)) rfl rfl, hdecode _ (.sub 5 6 7) rfl rfl, hdecode _ (.sw 6 7 (-1)) rfl rfl,
    hdecode _ (.beq 0 0 (-4)) rfl rfl, hdecode _ (.jal 0 (-8)) rfl rfl, hdecode _ (.lui 5 0x12345000) rfl rfl,
    hdecode _ (.csrrw 5 6 0x305) rfl rfl, ?_, hdecode _ .ebreak rfl rfl, hdecode _ (.div 5 6 7) rfl rfl⟩
  exact (decodeWord_eq_none_iff _ _).mpr (Laws.not_accepts_encode_of_disabled (i := .ebreak) rfl)

/-- Settles O8: the word the step decodes is that of the four bytes at the pc. -/
theorem stepRunsTheDecodedInstruction : Obligations.StepRunsTheDecodedInstruction := fun _ _ => Fetches.step_eq_exec

/-- No row of the table accepts the all-zero word (R73). -/
theorem not_accepts_zero : ∀ r ∈ patternTable, r.accepts 0#32 = false := by decide

/-- Settles O9: the four bytes are the fetched word, and a core that fetches a word of no row halts. -/
theorem unmatchedWordHaltsAndWritesNothing : Obligations.UnmatchedWordHaltsAndWritesNothing := by
  refine ⟨fun g => ?_, fun s w hrun hplain hbytes hrows => ?_⟩
  · exact (decodeWord_eq_none_iff _ _).mpr fun r hr => not_accepts_zero r (mem_rowsOf.mp hr).1
  · obtain rfl := State.fetchWord_eq_of_toNat hbytes
    exact step_halts_of_no_row hrun hplain fun r hr => beq_eq_false_iff_ne.mpr (hrows r hr)

end Sys2Proof
end

section
/-! The integer computations (R101 to R121): what writing a register and going on changes, the operations on words as arithmetic on their
signed and unsigned readings, and the encodings of the I and R layouts by fields. -/

namespace Sys2Proof.Machine

variable {s : State} {i : Instr} {rd : RegIdx} {v : Word}

/-! ### An instruction that writes its destination (R100) -/

theorem exec_writesReg {v' : Word} (hexec : exec i s = s.retire rd v) (hv : v = v') :
    ∃ t, exec i s = .next t ∧ WritesReg s t rd v' (s.pc + 4) :=
  ⟨_, hexec, hv ▸ State.retireTo_writesReg ..⟩

theorem exec_writesReg_bits {b : Nat → Bool} (hexec : exec i s = s.retire rd v) (hbits : ∀ k, v.getLsbD k = b k) :
    ∃ t v, exec i s = .next t ∧ WritesReg s t rd v (s.pc + 4) ∧ ∀ k, k < 32 → v.getLsbD k = b k :=
  ⟨_, v, hexec, State.retireTo_writesReg .., fun k _ => hbits k⟩

/-! ### Comparisons (R104, R105, R115, R116) -/

theorem bool32_ltSigned (a b : Word) : bool32 (ltSigned a b) = if a.toInt < b.toInt then 1 else 0 := by
  simp [bool32, ltSigned]

theorem bool32_ltUnsigned (a b : Word) : bool32 (ltUnsigned a b) = if a.toNat < b.toNat then 1 else 0 := by
  simp [bool32, ltUnsigned]

/-! ### Register shift amounts (R114, R118, R119) -/

theorem shiftAmount_eq (v : Word) : shiftAmount v = v.toNat % 32 := BitVec.extractLsb'_toNat ..

end Sys2Proof.Machine

namespace Sys2Proof

open Machine

/-! ### Words as readings (R10) -/

theorem add_eq_ofInt (x y : Word) : x + y = BitVec.ofInt 32 (x.toInt + y.toInt) :=
  BitVec.eq_of_toInt_eq (by rw [BitVec.toInt_add, BitVec.toInt_ofInt])

theorem sub_eq_ofInt (x y : Word) : x - y = BitVec.ofInt 32 (x.toInt - y.toInt) :=
  BitVec.eq_of_toInt_eq (by rw [BitVec.toInt_sub, BitVec.toInt_ofInt])

theorem shiftLeft_eq_ofNat (x : Word) (n : Nat) : x <<< n = BitVec.ofNat 32 (x.toNat * 2 ^ n) := by
  rw [← Nat.shiftLeft_eq]; rfl

theorem ushiftRight_eq_ofNat (x : Word) (n : Nat) : x >>> n = BitVec.ofNat 32 (x.toNat / 2 ^ n) := by
  rw [← Nat.shiftRight_eq_div_pow, ← BitVec.toNat_ushiftRight, BitVec.ofNat_toNat, BitVec.setWidth_eq]

theorem sshiftRight_eq_ofInt (x : Word) (n : Nat) : x.sshiftRight n = BitVec.ofInt 32 (x.toInt / 2 ^ n) := by
  rw [BitVec.sshiftRight, Int.shiftRight_eq_div_pow, Int.natCast_pow]; rfl

theorem toNat_mod_of_fitsImmU {v : Word} (h : fitsImmU v = true) : v.toNat % 4096 = 0 := by
  have hlow := congrArg BitVec.toNat (beq_iff_eq.mp h)
  rwa [BitVec.extractLsb'_toNat] at hlow

/-! ### Encodings by fields (R61) -/

section
variable {i : Instr} {v : Word} {rd rs1 rs2 : RegIdx} {f3 : BitVec 3} {op f7 : BitVec 7} {opcode funct3 funct7 : Nat}

theorem codedAs_of_encodeI (h : encode i = encodeI v rs1 f3 rd op) (hop : op.toNat = opcode) (hf3 : f3.toNat = funct3) :
    CodedAs i opcode funct3 := by
  obtain ⟨hopField, -, hf3Field, -, -⟩ := encodeI_fields rs1 rd f3 op v
  rw [CodedAs, h, hopField, hf3Field]
  exact ⟨hop, hf3⟩

theorem codedAsR_of_encodeR (h : encode i = encodeR f7 rs2 rs1 f3 rd op) (hop : op.toNat = opcode) (hf3 : f3.toNat = funct3)
    (hf7 : f7.toNat = funct7) : CodedAsR i opcode funct3 funct7 := by
  obtain ⟨hopField, -, hf3Field, -, -, hf7Field⟩ := encodeR_fields f7 rs2 rs1 rd f3 op
  rw [CodedAsR, CodedAs, h, hopField, hf3Field, hf7Field]
  exact ⟨⟨hop, hf3⟩, hf7⟩

end

/-- The opcode and funct3 of `slli` with a funct7 other than 0 are no place of the opcode map, so no row accepts the word (R77, R109). -/
theorem decodeWord_eq_none_of_slli_funct7 (g : Groups) {w : Word} (hop : (w.extractLsb' 0 7).toNat = 0x13)
    (hf3 : (w.extractLsb' 12 3).toNat = 1) (hf7 : (w.extractLsb' 25 7).toNat ≠ 0) : decodeWord g w = none := by
  rw [← rowMnemonic_eq_none_iff, rowMnemonic_eq_opcodeMap]
  simp only [opcodeMap, hop, hf3]
  exact if_neg hf7

/-! ### The rules -/

/-- Settles O15: the sum and the difference of words are those of their signed readings modulo 2^32. -/
theorem addAndSubtractResults : Obligations.AddAndSubtractResults := by
  intro s rd rs1 rs2 imm
  exact ⟨exec_writesReg rfl (add_eq_ofInt _ _), exec_writesReg rfl (add_eq_ofInt _ _), exec_writesReg rfl (sub_eq_ofInt _ _),
    codedAs_of_encodeI rfl rfl rfl, codedAsR_of_encodeR rfl rfl rfl rfl, codedAsR_of_encodeR rfl rfl rfl rfl⟩

/-- Settles O16: each operation on words is the one on their bits. -/
theorem bitwiseResults : Obligations.BitwiseResults := by
  intro s rd rs1 rs2 imm
  exact ⟨exec_writesReg_bits rfl fun _ => BitVec.getLsbD_xor, exec_writesReg_bits rfl fun _ => BitVec.getLsbD_or,
    exec_writesReg_bits rfl fun _ => BitVec.getLsbD_and, exec_writesReg_bits rfl fun _ => BitVec.getLsbD_xor,
    exec_writesReg_bits rfl fun _ => BitVec.getLsbD_or, exec_writesReg_bits rfl fun _ => BitVec.getLsbD_and,
    codedAs_of_encodeI rfl rfl rfl, codedAs_of_encodeI rfl rfl rfl, codedAs_of_encodeI rfl rfl rfl,
    codedAsR_of_encodeR rfl rfl rfl rfl, codedAsR_of_encodeR rfl rfl rfl rfl, codedAsR_of_encodeR rfl rfl rfl rfl⟩

/-- Settles O17: a shift is a product with or a quotient by a power of two, its register amount the low five bits; the other funct7 of `slli`
are no place of the opcode map. -/
theorem shiftResults : Obligations.ShiftResults := by
  refine ⟨fun s rd rs1 rs2 shamt => ?_, fun g w => decodeWord_eq_none_of_slli_funct7 g⟩
  simp only [← shiftAmount_eq]
  exact ⟨exec_writesReg rfl (shiftLeft_eq_ofNat _ _), exec_writesReg rfl (ushiftRight_eq_ofNat _ _),
    exec_writesReg rfl (sshiftRight_eq_ofInt _ _), exec_writesReg rfl (shiftLeft_eq_ofNat _ _),
    exec_writesReg rfl (ushiftRight_eq_ofNat _ _), exec_writesReg rfl (sshiftRight_eq_ofInt _ _),
    codedAsR_of_encodeR rfl rfl rfl rfl, codedAsR_of_encodeR rfl rfl rfl rfl, codedAsR_of_encodeR rfl rfl rfl rfl,
    codedAsR_of_encodeR rfl rfl rfl rfl, codedAsR_of_encodeR rfl rfl rfl rfl, codedAsR_of_encodeR rfl rfl rfl rfl⟩

/-- Settles O18: `bool32` of a comparison is 1 or 0 by the order of the readings. -/
theorem compareResults : Obligations.CompareResults := by
  intro s rd rs1 rs2 imm
  exact ⟨exec_writesReg rfl (bool32_ltSigned _ _), exec_writesReg rfl (bool32_ltUnsigned _ _),
    exec_writesReg rfl (bool32_ltSigned _ _), exec_writesReg rfl (bool32_ltUnsigned _ _),
    codedAs_of_encodeI rfl rfl rfl, codedAs_of_encodeI rfl rfl rfl,
    codedAsR_of_encodeR rfl rfl rfl rfl, codedAsR_of_encodeR rfl rfl rfl rfl⟩

/-- Settles O14: `lui` writes the immediate and `auipc` its sum with the pc; a well-formed immediate has no low 12 bits. -/
theorem upperImmediateResults : Obligations.UpperImmediateResults := by
  intro s rd imm
  exact ⟨exec_writesReg rfl rfl, exec_writesReg rfl (BitVec.add_def ..), toNat_mod_of_fitsImmU,
    (encodeU_fields rd _ imm).1, (encodeU_fields rd _ imm).1⟩

end Sys2Proof
end

section
/-! Loads and stores (R130 to R138): the effective address, the extended values of the bytes read, the encodings of stores by fields, and
that only a store writes memory. -/

namespace Sys2Proof.Machine

variable {s t : State}

/-! ### The effective address (R130) -/

/-- The effective address is the sum of the unsigned readings modulo 2^32 (R47). -/
theorem State.effAddr_eq_ofNat (s : State) (rs1 : RegIdx) (imm : Word) :
    s.effAddr rs1 imm = BitVec.ofNat 32 ((s.reg rs1).toNat + imm.toNat) := BitVec.add_def ..

/-! ### What a load writes (R131 to R135) -/

theorem State.extractLsb'_memRead_byte (s : State) (a : Word) : (s.memRead a .byte).extractLsb' 0 8 = s.byteAt a := by
  rw [State.memRead, BitVec.extractLsb'_setWidth_of_le (by omega), BitVec.extractLsb'_eq_self]

theorem State.extractLsb'_memRead_half (s : State) (a : Word) :
    (s.memRead a .half).extractLsb' 0 16 = s.byteAt (a + 1) ++ s.byteAt a := by
  rw [State.memRead, BitVec.extractLsb'_setWidth_of_le (by omega), BitVec.extractLsb'_eq_self]

/-- The signed value of two bytes: the upper signed, the lower unsigned (R132). -/
theorem toInt_append_byte (hi lo : Byte) : (hi ++ lo).toInt = hi.toInt * 256 + lo.toNat := by
  rw [BitVec.toInt_append, if_neg (by decide), Int.mul_comm]
  rfl

theorem State.sextByte_memRead (s : State) (a : Word) :
    sextByte (s.memRead a .byte) = BitVec.ofInt 32 (s.byteAt a).toInt := by
  rw [sextByte, State.extractLsb'_memRead_byte]
  rfl

theorem State.zextByte_memRead (s : State) (a : Word) :
    zextByte (s.memRead a .byte) = BitVec.ofNat 32 (s.byteAt a).toNat := by
  rw [zextByte, State.extractLsb'_memRead_byte, BitVec.ofNat_toNat]

theorem State.sextHalf_memRead (s : State) (a : Word) :
    sextHalf (s.memRead a .half) = BitVec.ofInt 32 ((s.byteAt (a + 1)).toInt * 256 + (s.byteAt a).toNat) := by
  rw [sextHalf, State.extractLsb'_memRead_half, ← toInt_append_byte]
  rfl

theorem State.zextHalf_memRead (s : State) (a : Word) :
    zextHalf (s.memRead a .half) = BitVec.ofNat 32 ((s.byteAt (a + 1)).toNat * 256 + (s.byteAt a).toNat) := by
  rw [← State.memRead_half_toNat, BitVec.ofNat_toNat, BitVec.setWidth_eq, zextHalf, State.extractLsb'_memRead_half, State.memRead]

theorem State.memRead_word_eq_ofNat (s : State) (a : Word) :
    s.memRead a .word = BitVec.ofNat 32 ((s.byteAt (a + 3)).toNat * 16777216 + (s.byteAt (a + 2)).toNat * 65536
      + (s.byteAt (a + 1)).toNat * 256 + (s.byteAt a).toNat) := by
  rw [← wordOfBytes_toNat, BitVec.ofNat_toNat, BitVec.setWidth_eq, State.memRead]

/-- An instruction that loads plain bytes writes their extended value to its destination, and nothing else (R130). -/
theorem exec_load_writesReg {i : Instr} {rd rs1 : RegIdx} {imm v : Word} {n : Width} {f : Word → Word}
    (hexec : exec i s = s.load rd rs1 imm n f) (hplain : PlainRange s (s.effAddr rs1 imm) n.bytes)
    (hv : f (s.memRead (s.effAddr rs1 imm) n) = v) :
    ∃ t, exec i s = .next t ∧ WritesReg s t rd v (s.pc + 4) := by
  rw [hexec, ← hv]
  exact State.load_completes hplain

/-! ### Only a store writes memory (R42, R130) -/

/-- An instruction that stores nothing leaves memory as it was, however it ends. -/
theorem ExecCase.mem_eq_of_storeWidth {i : Instr} (h : ExecCase i s t) (hi : i.storeWidth = none) : t.mem = s.mem := by
  cases h with
  | stores _ _ _ _ _ hs => rw [hi] at hs; cases hs
  | swaps => simp
  | writes | goes | unmapped | traps | completes => rfl

end Sys2Proof.Machine

namespace Sys2Proof

open Machine

theorem codedAs_of_encodeS {i : Instr} {v : Word} {rs1 rs2 : RegIdx} {f3 : BitVec 3} {op : BitVec 7} {opcode funct3 : Nat}
    (h : encode i = encodeS v rs2 rs1 f3 op) (hop : op.toNat = opcode) (hf3 : f3.toNat = funct3) :
    CodedAs i opcode funct3 := by
  obtain ⟨hopField, hf3Field, -, -⟩ := encodeS_fields rs2 rs1 f3 op v
  rw [CodedAs, h, hopField, hf3Field]
  exact ⟨hop, hf3⟩

/-- Settles O20: each load of plain bytes completes, and what it writes is the extended value of the bytes it reads. -/
theorem loadResults : Obligations.LoadResults := by
  intro s rd rs1 imm ea hea
  rw [← State.effAddr_eq_ofNat] at hea
  subst hea
  refine ⟨fun h => ⟨?lb, ?lbu⟩, fun h => ⟨?lh, ?lhu⟩, fun h => ?lw, codedAs_of_encodeI rfl rfl rfl, codedAs_of_encodeI rfl rfl rfl,
    codedAs_of_encodeI rfl rfl rfl, codedAs_of_encodeI rfl rfl rfl, codedAs_of_encodeI rfl rfl rfl⟩
  case lb => exact exec_load_writesReg rfl h (State.sextByte_memRead _ _)
  case lbu => exact exec_load_writesReg rfl h (State.zextByte_memRead _ _)
  case lh => exact exec_load_writesReg rfl h (State.sextHalf_memRead _ _)
  case lhu => exact exec_load_writesReg rfl h (State.zextHalf_memRead _ _)
  case lw => exact exec_load_writesReg rfl h (State.memRead_word_eq_ofNat _ _)

/-- Settles O21: each store to plain bytes of a canonical memory completes, with the bytes of its own width. -/
theorem storeResults : Obligations.StoreResults := by
  intro s rs1 rs2 imm hwf
  exact ⟨State.store_completes (n := .byte) hwf, State.store_completes (n := .half) hwf, State.store_completes (n := .word) hwf,
    State.effAddr_eq_ofNat s rs1 imm, codedAs_of_encodeS rfl rfl rfl, codedAs_of_encodeS rfl rfl rfl,
    codedAs_of_encodeS rfl rfl rfl⟩

/-- Settles O48, by the ways an instruction can end: all but the store keep memory. -/
theorem onlyStoresWriteMemory : Obligations.OnlyStoresWriteMemory :=
  fun _ _ _ hexec hi => (exec_cases hexec).mem_eq_of_storeWidth hi

end Sys2Proof
end

section
/-! Jumps and branches (R150 to R161): their targets as sums of readings, the conditions of branches on readings, the encodings of
branches by fields, and which instructions keep the pc even (R159). -/

namespace Sys2Proof

open Machine

/-! ### Even words and sums (R10, R27) -/

theorem add_eq_ofInt_toNat_toInt (x y : Word) : x + y = BitVec.ofInt 32 (x.toNat + y.toInt) := by
  rw [BitVec.ofInt_add, BitVec.ofInt_natCast, BitVec.ofInt_toInt, BitVec.ofNat_toNat, BitVec.setWidth_eq]

theorem toNat_mod_two_eq_zero {v : Word} (h : v.getLsbD 0 = false) : v.toNat % 2 = 0 := by
  simpa [BitVec.getLsbD, Nat.testBit_zero] using h

theorem toNat_add_mod_two {x y : Word} (hx : x.toNat % 2 = 0) (hy : y.toNat % 2 = 0) : (x + y).toNat % 2 = 0 := by
  rw [BitVec.toNat_add]
  omega

/-- The offset of a well-formed branch is even (R65). -/
theorem toNat_mod_two_of_fitsOffsetB {v : Word} (h : fitsOffsetB v = true) : v.toNat % 2 = 0 := by
  simp only [fitsOffsetB, Bool.and_eq_true, Bool.not_eq_true'] at h
  exact toNat_mod_two_eq_zero h.2

/-- The offset of a well-formed `jal` is even (R67). -/
theorem toNat_mod_two_of_fitsOffsetJ {v : Word} (h : fitsOffsetJ v = true) : v.toNat % 2 = 0 := by
  simp only [fitsOffsetJ, Bool.and_eq_true, Bool.not_eq_true'] at h
  exact toNat_mod_two_eq_zero h.2

/-- The decoder yields well-formed instructions only (R69). -/
theorem wellFormed_of_decodeWord {g : Groups} {w : Word} {i : Instr} (h : decodeWord g w = some i) : i.wellFormed = true :=
  (encodeOfDecodeIsTheWord g w i h).1

theorem codedAs_of_encodeB {i : Instr} {v : Word} {rs1 rs2 : RegIdx} {f3 : BitVec 3} {op : BitVec 7} {opcode funct3 : Nat}
    (h : encode i = encodeB v rs2 rs1 f3 op) (hop : op.toNat = opcode) (hf3 : f3.toNat = funct3) :
    CodedAs i opcode funct3 := by
  obtain ⟨hopField, hf3Field, -, -⟩ := encodeB_fields rs2 rs1 f3 op v
  rw [CodedAs, h, hopField, hf3Field]
  exact ⟨hop, hf3⟩

end Sys2Proof

namespace Sys2Proof.Machine

variable {s t : State} {i : Instr} {imm : Word}

/-! ### Targets (R150, R152) -/

theorem State.snpc_eq_ofNat (s : State) : s.snpc = BitVec.ofNat 32 (s.pc.toNat + 4) := BitVec.add_def ..

/-- The target of `jalr` is `x[rs1] + imm` with bit 0 cleared (R152). -/
theorem State.jalrTarget_getLsbD (s : State) (rs1 : RegIdx) (imm : Word) {k : Nat} (hk : k < 32) :
    (s.jalrTarget rs1 imm).getLsbD k = ((s.effAddr rs1 imm).getLsbD k && !decide (k = 0)) := by
  rw [State.jalrTarget, BitVec.getLsbD_and, BitVec.getLsbD_not, BitVec.getLsbD_one]
  simp [State.effAddr, hk]

theorem State.jalrTarget_getLsbD_zero (s : State) (rs1 : RegIdx) (imm : Word) : (s.jalrTarget rs1 imm).getLsbD 0 = false :=
  (State.jalrTarget_getLsbD s rs1 imm (by omega)).trans (Bool.and_false _)

theorem State.snpc_mod_two (h : s.pc.toNat % 2 = 0) : s.snpc.toNat % 2 = 0 := toNat_add_mod_two h rfl

theorem State.pcTarget_mod_two (hpc : s.pc.toNat % 2 = 0) (himm : imm.toNat % 2 = 0) : (s.pcTarget imm).toNat % 2 = 0 :=
  toNat_add_mod_two hpc himm

theorem State.jalrTarget_mod_two (rs1 : RegIdx) : (s.jalrTarget rs1 imm).toNat % 2 = 0 :=
  toNat_mod_two_eq_zero (State.jalrTarget_getLsbD_zero s rs1 imm)

/-! ### Branches (R153 to R158) -/

theorem geSigned_iff (a b : Word) : geSigned a b = true ↔ a.toInt ≥ b.toInt := by
  simp [geSigned, ltSigned]

theorem geUnsigned_iff (a b : Word) : geUnsigned a b = true ↔ a.toNat ≥ b.toNat := by
  simp [geUnsigned, ltUnsigned]

/-- An instruction that branches goes to its own address plus the offset where its condition holds, else to `pc + 4` (R150). -/
theorem exec_branch_onlyGoesTo {rs1 rs2 : RegIdx} {cond : Word → Word → Bool} {P : Prop} [Decidable P]
    (hexec : exec i s = s.branch rs1 rs2 imm cond) (hcond : cond (s.reg rs1) (s.reg rs2) = true ↔ P) :
    ∃ t, exec i s = .next t ∧ OnlyGoesTo s t (if P then s.pc + imm else s.pc + 4) := by
  refine ⟨_, hexec, ?_⟩
  rw [if_congr hcond rfl rfl]
  exact State.continueAt_onlyGoesTo _

/-- A branch with an even offset keeps the pc even, taken or not (R159). -/
theorem State.branch_pc_mod_two {rs1 rs2 : RegIdx} {cond : Word → Word → Bool} (hpc : s.pc.toNat % 2 = 0)
    (himm : imm.toNat % 2 = 0) (h : s.branch rs1 rs2 imm cond = .next t) : t.pc.toNat % 2 = 0 := by
  cases h
  rw [State.continueAt, State.commit_pc]
  split
  · exact State.pcTarget_mod_two hpc himm
  · exact State.snpc_mod_two hpc

/-! ### Which instructions keep the pc even (R159) -/

/-- A CSR instruction goes to `pc + 4`, or it halts and stays (R170, R177). -/
theorem ExecCase.pc_of_csrAddr {a : CsrAddr} (h : ExecCase i s t) (ha : i.csrAddr = some a) : t.pc = s.snpc ∨ t.pc = s.pc := by
  cases h with
  | swaps => exact .inl rfl
  | unmapped => exact .inr rfl
  | writes _ _ _ _ hc | goes _ _ hc | stores _ _ _ _ hc => rw [hc] at ha; cases ha
  | traps hi | completes hi => subst hi; cases ha

/-- From an even pc, a well-formed instruction goes to an even pc, unless it is `ecall`, or `mret`, which goes to mepc. -/
theorem exec_pc_mod_two (hwf : i.wellFormed = true) (hpc : s.pc.toNat % 2 = 0) (hexec : exec i s = .next t) :
    i = .ecall ∨ (i = .mret ∧ t.pc = s.mepc) ∨ t.pc.toNat % 2 = 0 := by
  have hsnpc : s.snpc.toNat % 2 = 0 := State.snpc_mod_two hpc
  cases i with
  | ecall => exact .inl rfl
  | mret => cases hexec; exact .inr (.inl ⟨rfl, rfl⟩)
  | jal => cases hexec; exact .inr (.inr (State.pcTarget_mod_two hpc (toNat_mod_two_of_fitsOffsetJ hwf)))
  | jalr => cases hexec; exact .inr (.inr (State.jalrTarget_mod_two _))
  | beq | bne | blt | bge | bltu | bgeu =>
    exact .inr (.inr (State.branch_pc_mod_two hpc (toNat_mod_two_of_fitsOffsetB hwf) hexec))
  | lb | lh | lw | lbu | lhu => rw [State.load_next hexec]; exact .inr (.inr hsnpc)
  | sb | sh | sw => rw [State.store_next hexec]; exact .inr (.inr hsnpc)
  | csrrw | csrrs | csrrc | csrrwi | csrrsi | csrrci =>
    obtain hgoes | hhalts := (exec_cases hexec).pc_of_csrAddr rfl
    · rw [hgoes]; exact .inr (.inr hsnpc)
    · rw [hhalts]; exact .inr (.inr hpc)
  | ebreak => cases hexec; exact .inr (.inr hpc)
  | _ => cases hexec; exact .inr (.inr hsnpc)

end Sys2Proof.Machine

namespace Sys2Proof

open Machine

/-- Settles O24: the targets are sums of readings modulo 2^32, the one of `jalr` from the old `x[rs1]` and with bit 0 cleared. -/
theorem jumpResults : Obligations.JumpResults := by
  intro s rd rs1 imm
  rw [← add_eq_ofInt_toNat_toInt, ← State.snpc_eq_ofNat, ← State.effAddr_eq_ofNat]
  refine ⟨⟨_, rfl, State.retireTo_writesReg ..⟩, ⟨_, s.jalrTarget rs1 imm, rfl, State.retireTo_writesReg ..,
    State.jalrTarget_getLsbD_zero s rs1 imm, fun k hpos hk => ?_⟩, (encodeJ_fields rd _ imm).1, codedAs_of_encodeI rfl rfl rfl⟩
  rw [State.jalrTarget_getLsbD s rs1 imm hk, decide_eq_false (Nat.ne_of_gt hpos), Bool.not_false, Bool.and_true]

/-- Settles O25: each branch by its condition on the readings of its two registers. -/
theorem branchResults : Obligations.BranchResults := by
  intro s rs1 rs2 imm
  exact ⟨exec_branch_onlyGoesTo rfl beq_iff_eq, exec_branch_onlyGoesTo rfl bne_iff_ne,
    exec_branch_onlyGoesTo rfl decide_eq_true_iff, exec_branch_onlyGoesTo rfl (geSigned_iff _ _),
    exec_branch_onlyGoesTo rfl decide_eq_true_iff, exec_branch_onlyGoesTo rfl (geUnsigned_iff _ _),
    codedAs_of_encodeB rfl rfl rfl, codedAs_of_encodeB rfl rfl rfl, codedAs_of_encodeB rfl rfl rfl,
    codedAs_of_encodeB rfl rfl rfl, codedAs_of_encodeB rfl rfl rfl, codedAs_of_encodeB rfl rfl rfl⟩

/-- Settles O26: the halt of an unmatched word keeps the pc, and of the well-formed instructions only `ecall` and `mret` can reach an odd one. -/
theorem pcTurnsOddOnlyThroughTrapOrReturn : Obligations.PcTurnsOddOnlyThroughTrapOrReturn := by
  intro s t hstep heven hodd
  obtain ⟨-, -, ⟨-, rfl⟩ | ⟨i, hdecode, hexec⟩⟩ := step_cases hstep
  · rw [State.halt_pc] at hodd
    omega
  · obtain rfl | ⟨rfl, hmepc⟩ | hpc := exec_pc_mod_two (wellFormed_of_decodeWord hdecode) heven hexec
    · exact .inl hdecode
    · exact .inr ⟨hdecode, hmepc ▸ hodd⟩
    · omega

end Sys2Proof
end

section
/-! The CSR instructions (R170 to R177): the swap on a mapped address and the halt on any other, for every instruction whose meaning is
`csrUpdate`; the bits the set and clear forms write; the encodings of the CSR layout by fields. -/

namespace Sys2Proof.Machine

variable {s : State} {i : Instr} {inst : Word} {a : CsrAddr} {rd : RegIdx} {f : Word → Word} {c : Csr}

/-! ### Each CSR instruction's update (R171 to R176) -/

theorem exec_csrrw (s : State) (rd rs1 : RegIdx) (a : CsrAddr) :
    exec (.csrrw rd rs1 a) s = s.csrUpdate (encode (.csrrw rd rs1 a)) a rd fun _ => s.reg rs1 := rfl

theorem exec_csrrs (s : State) (rd rs1 : RegIdx) (a : CsrAddr) :
    exec (.csrrs rd rs1 a) s = s.csrUpdate (encode (.csrrs rd rs1 a)) a rd fun t => t ||| s.reg rs1 := rfl

theorem exec_csrrc (s : State) (rd rs1 : RegIdx) (a : CsrAddr) :
    exec (.csrrc rd rs1 a) s = s.csrUpdate (encode (.csrrc rd rs1 a)) a rd fun t => t &&& ~~~(s.reg rs1) := rfl

theorem exec_csrrwi (s : State) (rd : RegIdx) (u : BitVec 5) (a : CsrAddr) :
    exec (.csrrwi rd u a) s = s.csrUpdate (encode (.csrrwi rd u a)) a rd fun _ => uimmValue u := rfl

theorem exec_csrrsi (s : State) (rd : RegIdx) (u : BitVec 5) (a : CsrAddr) :
    exec (.csrrsi rd u a) s = s.csrUpdate (encode (.csrrsi rd u a)) a rd fun t => t ||| uimmValue u := rfl

theorem exec_csrrci (s : State) (rd : RegIdx) (u : BitVec 5) (a : CsrAddr) :
    exec (.csrrci rd u a) s = s.csrUpdate (encode (.csrrci rd u a)) a rd fun t => t &&& ~~~(uimmValue u) := rfl

/-! ### An instruction that updates a CSR (R170, R177) -/

theorem exec_swapsCsr {new : Word} (hexec : exec i s = s.csrUpdate inst a rd f) (ha : csrOfAddr a = some c)
    (hnew : f (s.csr c) = new) : ∃ t, exec i s = .next t ∧ SwapsCsr s t c rd new := by
  rw [hexec, ← hnew]
  exact State.csrUpdate_completes ha

theorem exec_swapsCsr_bits {b : Nat → Bool} (hexec : exec i s = s.csrUpdate inst a rd f) (ha : csrOfAddr a = some c)
    (hbits : ∀ k, k < 32 → (f (s.csr c)).getLsbD k = b k) :
    ∃ t new, exec i s = .next t ∧ SwapsCsr s t c rd new ∧ ∀ k, k < 32 → new.getLsbD k = b k := by
  obtain ⟨t, hnext, hswaps⟩ := exec_swapsCsr hexec ha rfl
  exact ⟨t, f (s.csr c), hnext, hswaps, hbits⟩

theorem exec_haltsUnmapped (hexec : exec i s = s.csrUpdate (encode i) a rd f) (ha : csrOfAddr a = none) :
    ∃ t, exec i s = .next t ∧ OnlyHalts s t (.unsupportedCsr s.pc (encode i) a) := by
  rw [hexec]
  exact State.csrUpdate_halts ha

/-- An address off the list of the four is unmapped (R30, R170). -/
theorem csrOfAddr_eq_none_of_notMem (h : a ∉ [0x300#12, 0x305#12, 0x341#12, 0x342#12]) : csrOfAddr a = none :=
  (csrOfAddr_eq_none_iff a).mpr (by simpa using h)

/-! ### The words CSR instructions write (R172 to R176) -/

variable {k : Nat}

theorem getLsbD_clear (x y : Word) (hk : k < 32) : (x &&& ~~~y).getLsbD k = (x.getLsbD k && !y.getLsbD k) := by
  simp [hk]

theorem uimmValue_eq_ofNat (u : BitVec 5) : uimmValue u = BitVec.ofNat 32 u.toNat := (BitVec.ofNat_toNat ..).symm

theorem uimmValue_getLsbD (u : BitVec 5) (hk : k < 32) : (uimmValue u).getLsbD k = u.getLsbD k := by
  simp [uimmValue, hk]

theorem getLsbD_setUimm (x : Word) (u : BitVec 5) (hk : k < 32) :
    (x ||| uimmValue u).getLsbD k = (x.getLsbD k || u.getLsbD k) := by
  rw [BitVec.getLsbD_or, uimmValue_getLsbD u hk]

theorem getLsbD_clearUimm (x : Word) (u : BitVec 5) (hk : k < 32) :
    (x &&& ~~~(uimmValue u)).getLsbD k = (x.getLsbD k && !u.getLsbD k) := by
  rw [getLsbD_clear x _ hk, uimmValue_getLsbD u hk]

end Sys2Proof.Machine

namespace Sys2Proof

open Machine

theorem codedAs_of_encodeCsr {i : Instr} {a : CsrAddr} {src : BitVec 5} {f3 : BitVec 3} {rd : RegIdx} {funct3 : Nat}
    (h : encode i = encodeCsr a src f3 rd) (hf3 : f3.toNat = funct3) : CodedAs i 0x73 funct3 := by
  obtain ⟨hopField, -, hf3Field, -, -⟩ := encodeCsr_fields src rd f3 a
  rw [CodedAs, h, hopField, hf3Field]
  exact ⟨rfl, hf3⟩

/-- Settles O27: both instructions are `csrUpdate`, which swaps the word of a mapped address and halts on any other. -/
theorem csrReadWriteAndSetResults : Obligations.CsrReadWriteAndSetResults := by
  intro s rd rs1 a
  refine ⟨fun c hac => ?mapped, fun ha => ?unmapped, codedAs_of_encodeCsr rfl rfl, codedAs_of_encodeCsr rfl rfl⟩
  case mapped =>
    have hc := (csrOfAddr_eq_some_iff a c).mpr hac
    exact ⟨exec_swapsCsr (exec_csrrw ..) hc rfl, exec_swapsCsr_bits (exec_csrrs ..) hc fun _ _ => BitVec.getLsbD_or⟩
  case unmapped =>
    have hnone := csrOfAddr_eq_none_of_notMem ha
    exact ⟨exec_haltsUnmapped (exec_csrrw ..) hnone, exec_haltsUnmapped (exec_csrrs ..) hnone⟩

/-- Settles O28: the four optional forms are `csrUpdate` too, and without their group no row accepts their words. -/
theorem csrFullGroupResults : Obligations.CsrFullGroupResults := by
  intro s rd rs1 u a
  refine ⟨fun c hac => ?mapped, fun ha => ?unmapped, codedAs_of_encodeCsr rfl rfl, codedAs_of_encodeCsr rfl rfl,
    codedAs_of_encodeCsr rfl rfl, codedAs_of_encodeCsr rfl rfl, decodeErrorWithoutGroup _, decodeErrorWithoutGroup _,
    decodeErrorWithoutGroup _, decodeErrorWithoutGroup _⟩
  case mapped =>
    have hc := (csrOfAddr_eq_some_iff a c).mpr hac
    exact ⟨exec_swapsCsr_bits (exec_csrrc ..) hc fun _ hk => getLsbD_clear _ _ hk,
      exec_swapsCsr (exec_csrrwi ..) hc (uimmValue_eq_ofNat u),
      exec_swapsCsr_bits (exec_csrrsi ..) hc fun _ hk => getLsbD_setUimm _ u hk,
      exec_swapsCsr_bits (exec_csrrci ..) hc fun _ hk => getLsbD_clearUimm _ u hk⟩
  case unmapped =>
    have hnone := csrOfAddr_eq_none_of_notMem ha
    simp only [List.forall_mem_cons]
    exact ⟨exec_haltsUnmapped (exec_csrrc ..) hnone, exec_haltsUnmapped (exec_csrrwi ..) hnone,
      exec_haltsUnmapped (exec_csrrsi ..) hnone, exec_haltsUnmapped (exec_csrrci ..) hnone, List.forall_mem_nil _⟩

end Sys2Proof
end

section
/-! The trap and the system instructions (R190 to R197): what `MachineEntry` stores, the handler of R193 as its four instructions one
after the other, and the fences' encoding as an I layout. -/

namespace Sys2Proof.Machine

variable {s t u : State} {r : RegIdx}

/-! ### Frames of instructions in a row -/

theorem SameRegs.sameRegsBut (h : SameRegs s t) (r : RegIdx) : SameRegsBut r s t :=
  ⟨h.1, fun q h0 _ => h.2 q h0⟩

theorem SameRegsBut.trans (hst : SameRegsBut r s t) (htu : SameRegsBut r t u) : SameRegsBut r s u :=
  ⟨htu.1, fun q h0 hq => (htu.2 q h0 hq).trans (hst.2 q h0 hq)⟩

/-- A write to x0 changes no register (R21). -/
theorem SameRegsBut.sameRegs_of_zero (h : SameRegsBut 0#5 s t) : SameRegs s t :=
  ⟨h.1, fun q h0 => h.2 q h0 h0⟩

theorem SameBytes.trans (hst : SameBytes s t) (htu : SameBytes t u) : SameBytes s u :=
  fun a => (htu a).trans (hst a)

/-! ### Trap entry (R232) -/

/-- `MachineEntry` resumes at mtvec, with the event's address in mepc and its kind in mcause (R232). -/
theorem State.dispatchTrap_of_machineEntry (h : s.params.trapDispatch = .machineEntry) (kind epc : Word) :
    s.dispatchTrap kind epc = ⟨s.mtvec, epc, kind⟩ := by
  rw [State.dispatchTrap, h]

theorem State.mepc_takeTrap_of_machineEntry (h : s.params.trapDispatch = .machineEntry) (kind : Word) :
    (s.takeTrap kind).mepc = s.pc := by
  rw [State.takeTrap_mepc, State.dispatchTrap_of_machineEntry h]

theorem State.mcause_takeTrap_of_machineEntry (h : s.params.trapDispatch = .machineEntry) (kind : Word) :
    (s.takeTrap kind).mcause = kind := by
  rw [State.takeTrap_mcause, State.dispatchTrap_of_machineEntry h]

/-! ### The handler of R193 -/

/-- `csrrs` from x0 reads a CSR and writes the word it holds back (R172). -/
theorem exec_csrrs_zero {a : CsrAddr} {c : Csr} (ha : csrOfAddr a = some c) (h0 : s.reg 0#5 = 0#32) (rd : RegIdx) :
    ∃ t, exec (.csrrs rd 0#5 a) s = .next t ∧ SwapsCsr s t c rd (s.csr c) :=
  exec_swapsCsr (exec_csrrs ..) ha (by rw [h0, BitVec.or_zero])

theorem exec_mret_onlyGoesTo (s : State) : ∃ t, exec .mret s = .next t ∧ OnlyGoesTo s t s.mepc :=
  ⟨_, rfl, State.continueAt_onlyGoesTo _⟩

/-- The handler, run where x0 is 0, adds 4 to mepc and goes there; of the registers it changes only its own, of the CSRs only mepc. -/
theorem exec_trapHandler (h0 : s.reg 0#5 = 0#32) (hr : r ≠ 0#5) :
    ∃ s₂, exec (.csrrs r 0#5 0x341#12) s = .next s₂ ∧ ∃ s₃, exec (.addi r r 4#32) s₂ = .next s₃ ∧
    ∃ s₄, exec (.csrrw 0#5 r 0x341#12) s₃ = .next s₄ ∧ ∃ s₅, exec .mret s₄ = .next s₅ ∧
      s₅.pc = s.mepc + 4 ∧ s₅.csr .mepc = s.mepc + 4 ∧ s₅.csr .mcause = s.csr .mcause ∧
      SameRegsBut r s s₅ ∧ SameBytes s s₅ := by
  have hmepc : csrOfAddr 0x341#12 = some .mepc := rfl
  obtain ⟨s₂, hexec₂, -, hcsrs₂, hreg₂, hregs₂, -, hbytes₂, -⟩ := exec_csrrs_zero hmepc h0 r
  obtain ⟨s₃, hexec₃, hreg₃, hregs₃, -, hcsrs₃, hbytes₃, -⟩ :
    ∃ t, exec (.addi r r 4#32) s₂ = .next t ∧ WritesReg s₂ t r (s₂.reg r + 4) (s₂.pc + 4) := exec_writesReg rfl rfl
  obtain ⟨s₄, hexec₄, hnew₄, hcsrs₄, -, hregs₄, -, hbytes₄, -⟩ := exec_swapsCsr (exec_csrrw s₃ 0#5 r 0x341#12) hmepc rfl
  obtain ⟨s₅, hexec₅, hregs₅, ⟨hpc₅, -⟩, hcsrs₅, hbytes₅, -⟩ := exec_mret_onlyGoesTo s₄
  rw [if_neg hr] at hreg₂ hreg₃
  have hmepc₄ : s₄.mepc = s.mepc + 4 := hnew₄.trans (by rw [hreg₃, hreg₂]; rfl)
  have hcause : s₅.csr .mcause = s.csr .mcause := by
    rw [hcsrs₅, hcsrs₄ _ (by decide), hcsrs₃, hcsrs₂ _ (by decide)]
  have hregs : SameRegsBut r s s₅ :=
    ((hregs₂.trans hregs₃).trans (hregs₄.sameRegs_of_zero.sameRegsBut r)).trans (hregs₅.sameRegsBut r)
  exact ⟨s₂, hexec₂, s₃, hexec₃, s₄, hexec₄, s₅, hexec₅, hpc₅.trans hmepc₄, (hcsrs₅ .mepc).trans hmepc₄, hcause, hregs,
    ((hbytes₂.trans hbytes₃).trans hbytes₄).trans hbytes₅⟩

end Sys2Proof.Machine

namespace Sys2Proof

open Machine

/-- The fields `fm`, `pred` and `succ` of a fence stand where the I layout has its immediate (R61). -/
theorem encode_fence_eq_encodeI (fm pred succ : BitVec 4) (rs1 rd : RegIdx) :
    encode (.fence fm pred succ rs1 rd) = encodeI ((fm ++ pred ++ succ : BitVec 12).setWidth 32) rs1 0b000#3 rd 0x0F#7 := by
  rw [encode, encodeI, BitVec.extractLsb'_setWidth_of_le (by omega), BitVec.extractLsb'_eq_self]

/-! ### The rules -/

/-- Settles O34: the trap leaves the address of the `ecall` in mepc and x0 = 0, and from there the handler adds 4. -/
theorem trapHandlerResumesAfterTheEcall : Obligations.TrapHandlerResumesAfterTheEcall := by
  intro s r hdispatch hr
  obtain ⟨hregs, hbytes, -⟩ := State.takeTrap_frame (s := s) (s.reg s.params.selReg)
  have hmepc := State.mepc_takeTrap_of_machineEntry hdispatch (s.reg s.params.selReg)
  have hcause := State.mcause_takeTrap_of_machineEntry hdispatch (s.reg s.params.selReg)
  obtain ⟨s₂, hexec₂, s₃, hexec₃, s₄, hexec₄, s₅, hexec₅, hpc₅, hmepc₅, hcause₅, hregs₅, hbytes₅⟩ :=
    exec_trapHandler hregs.1 hr
  rw [hmepc] at hpc₅ hmepc₅
  exact ⟨_, rfl, ⟨_, rfl, hmepc⟩, s₂, hexec₂, s₃, hexec₃, s₄, hexec₄, s₅, hexec₅, hpc₅, hmepc₅, hcause₅.trans hcause,
    (hregs.sameRegsBut r).trans hregs₅, hbytes.trans hbytes₅⟩

/-- Settles O30: `ecall` is `takeTrap` on the selector register, whatever the dispatch answers. -/
theorem ecallDispatchesTheTrap : Obligations.EcallDispatchesTheTrap :=
  fun s => ⟨rfl, s.takeTrap (s.reg s.params.selReg), rfl, State.takeTrap_pc .., State.takeTrap_mepc .., State.takeTrap_mcause ..,
    State.takeTrap_mstatus .., State.takeTrap_mtvec .., State.takeTrap_result .., State.takeTrap_frame _⟩

/-- Settles O33: `mret` only goes on, at mepc. -/
theorem mretGoesToMepc : Obligations.MretGoesToMepc :=
  fun s => ⟨rfl, exec_mret_onlyGoesTo s⟩

/-- Settles O35: `ebreak` is a halt, and without its group no row accepts its word. -/
theorem ebreakCompletesTheRun : Obligations.EbreakCompletesTheRun :=
  ⟨rfl, decodeErrorWithoutGroup .ebreak, fun s => ⟨s.halt (.completed s.pc), rfl, State.halt_onlyHalts _⟩⟩

/-- Settles O36: both fences only go on, at `pc + 4`, and without their group no row accepts their words. -/
theorem fencesOnlyAdvanceThePc : Obligations.FencesOnlyAdvanceThePc := by
  intro s fm pred succ rs1 rd imm
  exact ⟨⟨_, rfl, State.continueAt_onlyGoesTo _⟩, ⟨_, rfl, State.continueAt_onlyGoesTo _⟩,
    codedAs_of_encodeI (encode_fence_eq_encodeI ..) rfl rfl, codedAs_of_encodeI rfl rfl rfl,
    decodeErrorWithoutGroup _, decodeErrorWithoutGroup _⟩

end Sys2Proof
end

section
/-! The M group (R211 to R219): the high words as floors of exact products of readings, the quotients and remainders as the integers'
own, and the corner values of R219. -/

namespace Sys2Proof.Machine

variable {a b : Word}

/-! ### Products (R210 to R214) -/

theorem mul_eq_ofInt (a b : Word) : a * b = BitVec.ofInt 32 (a.toInt * b.toInt) :=
  BitVec.eq_of_toInt_eq (by rw [BitVec.toInt_mul, BitVec.toInt_ofInt])

/-- Zero extension keeps the unsigned reading, as `BitVec.signExtend` by definition keeps the signed one (R213, R214). -/
theorem setWidth_eq_ofInt (a : Word) : a.setWidth 64 = BitVec.ofInt 64 a.toNat := by
  rw [BitVec.ofInt_natCast, BitVec.ofNat_toNat]

/-- Bits 63..32 of a 64-bit two's-complement word are the floor by 2^32 of any integer it stands for (R210). -/
theorem highWord_ofInt (z : Int) : highWord (BitVec.ofInt 64 z) = BitVec.ofInt 32 (z / 4294967296) := by
  apply BitVec.eq_of_toNat_eq
  rw [highWord, BitVec.extractLsb'_toNat, Nat.shiftRight_eq_div_pow, BitVec.toNat_ofInt, BitVec.toNat_ofInt]
  omega

theorem mulHigh_eq (a b : Word) : mulHigh a b = BitVec.ofInt 32 (a.toInt * b.toInt / 4294967296) := by
  rw [mulHigh, BitVec.signExtend, BitVec.signExtend, ← BitVec.ofInt_mul, highWord_ofInt]

theorem mulHighSignedUnsigned_eq (a b : Word) :
    mulHighSignedUnsigned a b = BitVec.ofInt 32 (a.toInt * b.toNat / 4294967296) := by
  rw [mulHighSignedUnsigned, BitVec.signExtend, setWidth_eq_ofInt, ← BitVec.ofInt_mul, highWord_ofInt]

theorem mulHighUnsigned_eq (a b : Word) : mulHighUnsigned a b = BitVec.ofNat 32 (a.toNat * b.toNat / 4294967296) := by
  rw [mulHighUnsigned, setWidth_eq_ofInt, setWidth_eq_ofInt, ← BitVec.ofInt_mul, highWord_ofInt, ← BitVec.ofInt_natCast]
  norm_cast

/-! ### Signed division (R215, R217, R219) -/

@[simp] theorem divSigned_zero (a : Word) : divSigned a 0#32 = 0xFFFFFFFF#32 := if_pos rfl

@[simp] theorem remSigned_zero (a : Word) : remSigned a 0#32 = a := if_pos rfl

theorem divSigned_overflow : divSigned 0x80000000#32 0xFFFFFFFF#32 = 0x80000000#32 := rfl

theorem remSigned_overflow : remSigned 0x80000000#32 0xFFFFFFFF#32 = 0#32 := rfl

/-- Away from the corners the quotient rounded toward zero fits in a word (R215). -/
theorem toInt_divSigned (hb : b ≠ 0#32) (hov : ¬ (a = 0x80000000#32 ∧ b = 0xFFFFFFFF#32)) :
    (divSigned a b).toInt = a.toInt.tdiv b.toInt := by
  rw [divSigned, if_neg hb, if_neg hov, BitVec.toInt_ofInt, ← BitVec.toInt_sdiv]
  exact BitVec.toInt_sdiv_of_ne_or_ne a b (not_and_or.mp hov)

/-- Away from the corners the remainder is the one that goes with the quotient rounded toward zero (R217). -/
theorem toInt_remSigned (hb : b ≠ 0#32) (hov : ¬ (a = 0x80000000#32 ∧ b = 0xFFFFFFFF#32)) :
    (remSigned a b).toInt = a.toInt.tmod b.toInt := by
  rw [remSigned, if_neg hb, if_neg hov, mul_comm, ← Int.tmod_def, ← BitVec.toInt_srem, BitVec.ofInt_toInt]

theorem natAbs_tmod_lt (x : Int) {y : Int} (hy : y ≠ 0) : (x.tmod y).natAbs < y.natAbs := by
  rw [Int.natAbs_tmod]
  exact Nat.mod_lt _ (Int.natAbs_pos.mpr hy)

theorem tmod_nonpos {x : Int} (hx : x ≤ 0) (y : Int) : x.tmod y ≤ 0 := by
  have hneg : 0 ≤ (-x).tmod y := Int.tmod_nonneg y (Int.neg_nonneg.mpr hx)
  rwa [Int.neg_tmod, Int.neg_nonneg] at hneg

/-! ### Unsigned division (R216, R218, R219) -/

@[simp] theorem divUnsigned_zero (a : Word) : divUnsigned a 0#32 = 0xFFFFFFFF#32 := if_pos rfl

@[simp] theorem remUnsigned_zero (a : Word) : remUnsigned a 0#32 = a := if_pos rfl

theorem toNat_divUnsigned (hb : b ≠ 0#32) : (divUnsigned a b).toNat = a.toNat / b.toNat := by
  rw [divUnsigned, if_neg hb, ← BitVec.udiv_def, BitVec.toNat_udiv]

theorem toNat_remUnsigned (hb : b ≠ 0#32) : (remUnsigned a b).toNat = a.toNat % b.toNat := by
  rw [remUnsigned, if_neg hb, ← BitVec.umod_def, BitVec.toNat_umod]

end Sys2Proof.Machine

namespace Sys2Proof

open Machine

/-- Settles O37: each high word is the floor of the product of the readings its two extensions keep. -/
theorem multiplyResults : Obligations.MultiplyResults := by
  intro s rd rs1 rs2
  exact ⟨exec_writesReg rfl (mul_eq_ofInt _ _), exec_writesReg rfl (mulHigh_eq _ _),
    exec_writesReg rfl (mulHighSignedUnsigned_eq _ _), exec_writesReg rfl (mulHighUnsigned_eq _ _),
    codedAsR_of_encodeR rfl rfl rfl rfl, codedAsR_of_encodeR rfl rfl rfl rfl, codedAsR_of_encodeR rfl rfl rfl rfl,
    codedAsR_of_encodeR rfl rfl rfl rfl⟩

/-- Settles O38: away from the corners the words read as `Int.tdiv` and `Int.tmod`, which satisfy the division equation with a remainder of
the dividend's sign. -/
theorem signedDivisionResults : Obligations.SignedDivisionResults := by
  intro s rd rs1 rs2
  refine ⟨divSigned (s.reg rs1) (s.reg rs2), remSigned (s.reg rs1) (s.reg rs2), exec_writesReg rfl rfl, exec_writesReg rfl rfl,
    fun hzero => ?byZero, fun hmin hminus => ?overflow, fun hne hov => ?general, codedAsR_of_encodeR rfl rfl rfl rfl,
    codedAsR_of_encodeR rfl rfl rfl rfl⟩
  case byZero =>
    rw [hzero]
    exact ⟨divSigned_zero _, remSigned_zero _⟩
  case overflow =>
    rw [hmin, hminus]
    exact ⟨divSigned_overflow, remSigned_overflow⟩
  case general =>
    have hne' : (s.reg rs2).toInt ≠ 0 := BitVec.toInt_ne.mpr hne
    rw [toInt_divSigned hne hov, toInt_remSigned hne hov]
    exact ⟨(Int.tdiv_mul_add_tmod ..).symm, natAbs_tmod_lt _ hne', Int.tmod_nonneg _, fun hnonpos => tmod_nonpos hnonpos _⟩

/-- Settles O39: for a divisor other than 0 the words read as the quotient and the remainder of the naturals. -/
theorem unsignedDivisionResults : Obligations.UnsignedDivisionResults := by
  intro s rd rs1 rs2
  refine ⟨divUnsigned (s.reg rs1) (s.reg rs2), remUnsigned (s.reg rs1) (s.reg rs2), exec_writesReg rfl rfl,
    exec_writesReg rfl rfl, fun hzero => ?byZero, fun hne => ?general, codedAsR_of_encodeR rfl rfl rfl rfl,
    codedAsR_of_encodeR rfl rfl rfl rfl⟩
  case byZero =>
    rw [hzero]
    exact ⟨divUnsigned_zero _, remUnsigned_zero _⟩
  case general =>
    rw [toNat_divUnsigned hne, toNat_remUnsigned hne]
    exact ⟨(Nat.div_add_mod' ..).symm, Nat.mod_lt _ (Nat.pos_of_ne_zero (BitVec.toNat_ne.mp hne))⟩

end Sys2Proof
end

section
/-! The ends of a step (R230 to R240): the halt of an unmapped CSR address for every CSR instruction at once, the tagged result of each
way an instruction ends, and the resume function of `HostResume`. -/

namespace Sys2Proof.Machine

variable {s t : State} {i : Instr} {a : CsrAddr} {r : HaltReason}

/-! ### An unmapped CSR address (R170, R238) -/

/-- A CSR instruction is one update of the CSR it names (R171 to R176). -/
theorem exec_eq_csrUpdate (ha : i.csrAddr = some a) (s : State) : ∃ rd f, exec i s = s.csrUpdate (encode i) a rd f := by
  cases i with
  | csrrw rd => cases ha; exact ⟨rd, _, exec_csrrw ..⟩
  | csrrs rd => cases ha; exact ⟨rd, _, exec_csrrs ..⟩
  | csrrc rd => cases ha; exact ⟨rd, _, exec_csrrc ..⟩
  | csrrwi rd => cases ha; exact ⟨rd, _, exec_csrrwi ..⟩
  | csrrsi rd => cases ha; exact ⟨rd, _, exec_csrrsi ..⟩
  | csrrci rd => cases ha; exact ⟨rd, _, exec_csrrci ..⟩
  | _ => cases ha

/-- A step that fetches a CSR instruction with an unmapped address halts and writes nothing. -/
theorem Fetches.step_haltsUnmapped (h : Fetches s i) (ha : i.csrAddr = some a) (hnone : csrOfAddr a = none) :
    ∃ t, step s = .next t ∧ OnlyHalts s t (.unsupportedCsr s.pc (encode i) a) := by
  obtain ⟨rd, f, hexec⟩ := exec_eq_csrUpdate ha s
  rw [h.step_eq_exec]
  exact exec_haltsUnmapped hexec hnone

/-! ### What each way an instruction ends answers (R230, R235) -/

/-- An instruction that halts a running core names an unmapped CSR address or is `ebreak`, and it only halts (R194, R238). -/
theorem ExecCase.halt_cause (h : ExecCase i s t) (hrun : s.status = .running) (hhalted : t.status = .halted r) :
    OnlyHalts s t r ∧
    ((∃ a, i.csrAddr = some a ∧ csrOfAddr a = none ∧ r = .unsupportedCsr s.pc (encode i) a) ∨
     (i = .ebreak ∧ r = .completed s.pc)) := by
  cases h with
  | unmapped a ha hnone =>
    cases hhalted
    exact ⟨State.halt_onlyHalts _, .inl ⟨a, ha, hnone, rfl⟩⟩
  | completes hi =>
    cases hhalted
    exact ⟨State.halt_onlyHalts _, .inr ⟨hi, rfl⟩⟩
  | writes | goes | stores | swaps | traps => simp [State.continueAt, hrun] at hhalted

/-- The result of an instruction is `trap` of the selector register and its own address for `ecall`, `halted` where it halts the core, else
`continue` of the pc it goes on at (R235). -/
theorem ExecCase.result (h : ExecCase i s t) :
    (i = .ecall ∧ t.status = s.status ∧ t.result = some (.trapped (s.reg s.params.selReg) s.pc)) ∨
    (i ≠ .ecall ∧ ∃ r, t.status = .halted r ∧ t.result = some (.halted r)) ∨
    (i ≠ .ecall ∧ t.status = s.status ∧ t.result = some (.continued t.pc)) := by
  cases h with
  | traps hi => exact .inl ⟨hi, rfl, rfl⟩
  | unmapped _ _ _ _ he => exact .inr (.inl ⟨he, _, rfl, rfl⟩)
  | completes hi => exact .inr (.inl ⟨by simp [hi], _, rfl, rfl⟩)
  | writes _ _ _ _ _ _ he | goes _ _ _ _ he => exact .inr (.inr ⟨he, rfl, rfl⟩)
  | stores _ _ _ _ _ _ he | swaps _ _ _ _ _ _ _ _ he => exact .inr (.inr ⟨he, by simp [State.continueAt], rfl⟩)

/-! ### The resume function of `HostResume` (R233) -/

/-- The resume function answers the value of an entry for the pair, or `otherwise` where no entry is for it. -/
theorem resumeOf_cases (f : ResumeMap) (kind epc : Word) :
    (∃ e ∈ f.entries, e.kind = kind ∧ e.epc = epc ∧ resumeOf f kind epc = e.resume) ∨
    (∀ e ∈ f.entries, ¬ (e.kind = kind ∧ e.epc = epc)) ∧ resumeOf f kind epc = f.otherwise := by
  unfold resumeOf
  split
  · rename_i e hfind
    obtain ⟨hkind, hepc⟩ : e.kind = kind ∧ e.epc = epc := by simpa using List.find?_some hfind
    exact .inl ⟨e, List.mem_of_find?_eq_some hfind, hkind, hepc, rfl⟩
  · rename_i hfind
    exact .inr ⟨by simpa using hfind, rfl⟩

/-- `HostResume(f)` resumes at the value of `f` for the event (R233). -/
theorem State.pc_takeTrap_of_hostResume {f : ResumeMap} (h : s.params.trapDispatch = .hostResume f) (kind : Word) :
    (s.takeTrap kind).pc = resumeOf f kind s.pc := by
  rw [State.takeTrap_pc, State.dispatchTrap, h]

/-- `MachineEntry` resumes at the whole mtvec (R232). -/
theorem State.pc_takeTrap_of_machineEntry (h : s.params.trapDispatch = .machineEntry) (kind : Word) :
    (s.takeTrap kind).pc = s.mtvec := by
  rw [State.takeTrap_pc, State.dispatchTrap_of_machineEntry h]

end Sys2Proof.Machine

namespace Sys2Proof

open Machine

/-- The encoding of the decoded instruction is the word it was decoded from (R69). -/
theorem encode_of_decodeWord {g : Groups} {w : Word} {i : Instr} (h : decodeWord g w = some i) : encode i = w :=
  (encodeOfDecodeIsTheWord g w i h).2.2

/-- The CSR address a CSR instruction names stands in bits 31..20 of its word (R61, R68). -/
theorem csrOf_encode {i : Instr} {a : CsrAddr} (ha : i.csrAddr = some a) : csrOf (encode i) = a := by
  cases i with
  | csrrw | csrrs | csrrc | csrrwi | csrrsi | csrrci =>
    cases ha
    obtain ⟨-, -, -, -, hcsr⟩ := encodeCsr_fields ..
    exact hcsr
  | _ => cases ha

/-- Settles O29: the fetched word is the encoding of the instruction, whose update of an unmapped address is a halt. -/
theorem unmappedCsrHaltsAndWritesNothing : Obligations.UnmappedCsrHaltsAndWritesNothing := by
  intro s i a hfetches ha hmstatus hmtvec hmepc hmcause
  have hnone : csrOfAddr a = none := (csrOfAddr_eq_none_iff a).mpr ⟨hmstatus, hmtvec, hmepc, hmcause⟩
  rw [← encode_of_decodeWord hfetches.decodeWord]
  exact ⟨(csrOf_encode ha).symm, hfetches.step_haltsUnmapped ha hnone⟩

/-- Settles O50: a step halts on a word of no row, or its instruction halts; `ebreak` is decoded only where its group is on. -/
theorem haltsHaveThreeCausesAndWriteNothing : Obligations.HaltsHaveThreeCausesAndWriteNothing := by
  intro s t r hstep hhalted
  obtain ⟨hrun, -, ⟨hdecode, rfl⟩ | ⟨i, hdecode, hexec⟩⟩ := step_cases hstep
  · cases hhalted
    exact ⟨State.halt_onlyHalts _, .inl ⟨hdecode, rfl⟩⟩
  · obtain ⟨honly, ⟨a, ha, hnone, hr⟩ | ⟨rfl, hr⟩⟩ := (exec_cases hexec).halt_cause hrun hhalted
    · rw [encode_of_decodeWord hdecode] at hr
      exact ⟨honly, .inr (.inl ⟨i, a, hdecode, ha, hnone, hr⟩)⟩
    · obtain ⟨-, hgroup, -⟩ := encodeOfDecodeIsTheWord _ _ _ hdecode
      exact ⟨honly, .inr (.inr ⟨hdecode, hgroup, hr⟩)⟩

/-- Settles O51: the halt of an unmatched word is tagged as one, and each way an instruction ends tags what it did. -/
theorem stepResultTellsWhatHappened : Obligations.StepResultTellsWhatHappened := by
  intro s t hstep
  obtain ⟨hrun, -, ⟨hdecode, rfl⟩ | ⟨i, hdecode, hexec⟩⟩ := step_cases hstep
  · exact .inr (.inl ⟨by simp [hdecode], _, rfl, rfl⟩)
  · rw [hdecode, ne_eq, Option.some.injEq, ← hrun]
    exact (exec_cases hexec).result

/-- Settles O31: `ecall` is `takeTrap`, and `MachineEntry` answers the whole mtvec, the address of the `ecall` and the kind. -/
theorem ecallTakesMachineEntry : Obligations.EcallTakesMachineEntry :=
  fun s hdispatch => ⟨rfl, s.takeTrap (s.reg s.params.selReg), rfl, State.mepc_takeTrap_of_machineEntry hdispatch _,
    State.mcause_takeTrap_of_machineEntry hdispatch _, State.pc_takeTrap_of_machineEntry hdispatch _, State.takeTrap_mstatus ..,
    State.takeTrap_mtvec .., State.takeTrap_result .., State.takeTrap_frame _⟩

/-- Settles O32: `ecall` is `takeTrap`, which `HostResume` sends to its function's value and which then writes no CSR. -/
theorem ecallTakesHostResume : Obligations.EcallTakesHostResume := by
  intro s f hdispatch
  refine ⟨s.takeTrap (s.reg s.params.selReg), rfl, ?_, State.takeTrap_result .., State.csr_takeTrap_of_hostResume _ hdispatch,
    State.takeTrap_frame _⟩
  rw [State.pc_takeTrap_of_hostResume hdispatch]
  exact resumeOf_cases f _ _

end Sys2Proof
end

section
/-! The launch (R39, R260) and what the host layer sees (R262 to R264): the memory of an image, the registers of a launch, the steps of a
burst and of the command `c`, and the bytes of the command `x`. -/

namespace Sys2Proof.Machine

variable {s t u : State} {k n : Nat} {r : HaltReason}

/-! ### The launch (R39, R260) -/

/-- The last byte of an image is placed last. -/
theorem Memory.ofImage_concat (image : List (Word × Byte)) (c : Word × Byte) :
    Memory.ofImage (image ++ [c]) = Memory.write (Memory.ofImage image) c.1.toNat c.2 := by
  simp [Memory.ofImage]

/-- An image's memory reads the last byte placed at an address. -/
theorem Memory.read_ofImage (image : List (Word × Byte)) (a : Word) :
    Memory.read (Memory.ofImage image) a.toNat =
      ((image.reverse.find? fun c => c.1 == a).map fun c => c.2).getD unwrittenByte := by
  induction image using List.reverseRecOn with
  | nil => rfl
  | append_singleton image c ih =>
    rw [Memory.ofImage_concat, Memory.read_write (Memory.wf_ofImage image), ih]
    by_cases hc : c.1 = a
    · simp [hc]
    · simp [hc, BitVec.toNat_inj, Ne.symm hc]

/-- The launch forces x0 to 0 and takes every other register from `GPR_INIT`. -/
theorem State.reg_launch (l : Launch) (q : RegIdx) :
    (State.launch l).reg q = if q = 0#5 then 0#32 else l.gprInit[q.toNat]'(q.isLt) := by
  have h0 : 0 = q.toNat ↔ q = 0#5 := by rw [← BitVec.toNat_inj, eq_comm]; rfl
  simp [State.reg, State.launch, Vector.getElem_set, h0]

/-- Every register is 0 at reset (log entry 4). -/
theorem State.reg_reset (q : RegIdx) : State.reset.reg q = 0#32 := by
  simp [State.reset, State.reg_launch, resetLaunch]

/-! ### Running and halted states (R37) -/

theorem State.isRunning_of_running (h : s.status = .running) : s.isRunning = true := decide_eq_true h

theorem State.isRunning_of_halted (h : s.status = .halted r) : s.isRunning = false := by simp [State.isRunning, h]

/-- A step is taken only in Running (R37). -/
theorem running_of_step (h : step s = .next t) : s.status = .running := (step_cases h).1

/-! ### Bursts (R262) -/

/-- The state that `j` steps reach, as long as each of them answers a state. -/
def State.afterSteps : State → Nat → State
  | s, 0 => s
  | s, j + 1 =>
    match step s with
    | .next t => t.afterSteps j
    | _ => s

theorem State.afterSteps_succ (h : step s = .next t) (j : Nat) : s.afterSteps (j + 1) = t.afterSteps j := by
  simp [State.afterSteps, h]

/-- `k` steps lead from `s` to `t`, each from a Running state, none but the last a trap step. -/
structure StepChain (k : Nat) (s t : State) : Prop where
  reaches : s.afterSteps k = t
  steps : ∀ j, j < k → (s.afterSteps j).status = .running ∧ step (s.afterSteps j) = .next (s.afterSteps (j + 1))
  untrapped : ∀ j, 0 < j → j < k → (s.afterSteps j).trappedLast = false

theorem StepChain.refl (s : State) : StepChain 0 s s where
  reaches := rfl
  steps _ hj := absurd hj (Nat.not_lt_zero _)
  untrapped _ _ hj := absurd hj (Nat.not_lt_zero _)

/-- A step in front of a chain, which must not be a trap step unless the chain is empty. -/
theorem StepChain.cons (hstep : step s = .next u) (htrap : 0 < k → u.trappedLast = false) (h : StepChain k u t) :
    StepChain (k + 1) s t where
  reaches := (State.afterSteps_succ hstep k).trans h.reaches
  steps
    | 0, _ => ⟨running_of_step hstep, by rw [State.afterSteps_succ hstep]; exact hstep⟩
    | j + 1, hj => by
      rw [State.afterSteps_succ hstep, State.afterSteps_succ hstep]
      exact h.steps j (Nat.lt_of_succ_lt_succ hj)
  untrapped
    | 1, _, hj => by
      rw [State.afterSteps_succ hstep]
      exact htrap (Nat.lt_of_succ_lt_succ hj)
    | j + 2, _, hj => by
      rw [State.afterSteps_succ hstep]
      exact h.untrapped (j + 1) (Nat.succ_pos j) (Nat.lt_of_succ_lt_succ hj)

/-- A burst of a running core that answers a state takes a step, and ends there if it traps. -/
theorem burst_succ_cases (hrun : s.status = .running) (h : burst (n + 1) s = .next t) :
    ∃ u, step s = .next u ∧ (u.trappedLast = true ∧ u = t ∨ u.trappedLast = false ∧ burst n u = .next t) := by
  rw [burst, if_pos (State.isRunning_of_running hrun)] at h
  split at h
  · rename_i u hstep
    split at h
    · rename_i htrap
      cases h
      exact ⟨t, hstep, .inl ⟨htrap, rfl⟩⟩
    · rename_i htrap
      exact ⟨u, hstep, .inr ⟨eq_false_of_ne_true htrap, h⟩⟩
  · cases h
  · cases h

/-- A burst is a chain of steps, as long as its count unless it ends at a halt or with a trap step. -/
theorem stepChain_of_burst (h : burst n s = .next t) :
    ∃ k, k ≤ n ∧ StepChain k s t ∧ (k = n ∨ t.status ≠ .running ∨ (0 < k ∧ t.trappedLast = true)) := by
  induction n generalizing s with
  | zero =>
    cases h
    exact ⟨0, le_rfl, .refl _, .inl rfl⟩
  | succ n ih =>
    cases hstatus : s.status with
    | halted =>
      rw [burst_of_halted hstatus] at h
      cases h
      exact ⟨0, Nat.zero_le _, .refl _, .inr (.inl (by simp [hstatus]))⟩
    | running =>
      obtain ⟨u, hstep, ⟨htrap, rfl⟩ | ⟨htrap, hrest⟩⟩ := burst_succ_cases hstatus h
      · exact ⟨1, Nat.succ_pos n, .cons hstep (absurd · (lt_irrefl 0)) (.refl u), .inr (.inr ⟨Nat.one_pos, htrap⟩)⟩
      · obtain ⟨k, hk, hchain, hend⟩ := ih hrest
        exact ⟨k + 1, Nat.succ_le_succ hk, .cons hstep (fun _ => htrap) hchain,
          hend.imp (congrArg (· + 1)) (.imp_right fun hlast => ⟨Nat.succ_pos k, hlast.2⟩)⟩

/-! ### The command `c` (R263, R265) -/

/-- Running the core goes on from the state of its first step. -/
theorem run_succ (h : step s = .next u) (k : Nat) : Host.Core.run core (k + 1) s = Host.Core.run core k u := by
  simp only [Host.Core.run, Host.Check.core_step, h]

/-- A run that answers a state after a first step took that step. -/
theorem step_of_run_succ (h : Host.Core.run core (k + 1) s = .next t) :
    ∃ u, step s = .next u ∧ Host.Core.run core k u = .next t := by
  simp only [Host.Core.run, Host.Check.core_step] at h
  split at h
  · rename_i u hstep
    exact ⟨u, hstep, h⟩
  · cases h
  · cases h

/-- In a halted core the command `c` returns at once (R265). -/
theorem continueRun_of_halted (h : s.status = .halted r) (n : Nat) : continueRun n s = some (.next s) := by
  cases n <;> simp [continueRun, State.isRunning_of_halted h]

/-- The command `c` goes on from the state of its first step. -/
theorem continueRun_succ (h : step s = .next u) (n : Nat) : continueRun (n + 1) s = continueRun n u := by
  rw [continueRun, if_pos (State.isRunning_of_running (running_of_step h)), h]

/-- The command `c` answers a state at once in a halted core, or after a step, if its bound allows one. -/
theorem continueRun_cases (h : continueRun n s = some (.next t)) :
    (∃ r, s.status = .halted r) ∧ s = t ∨ ∃ m u, n = m + 1 ∧ step s = .next u ∧ continueRun m u = some (.next t) := by
  cases hstatus : s.status with
  | halted r =>
    rw [continueRun_of_halted hstatus] at h
    cases h
    exact .inl ⟨⟨r, rfl⟩, rfl⟩
  | running =>
    have hrun := State.isRunning_of_running hstatus
    cases n with
    | zero =>
      rw [continueRun, if_pos hrun] at h
      cases h
    | succ m =>
      rw [continueRun, if_pos hrun] at h
      split at h
      · rename_i u hstep
        exact .inr ⟨m, u, rfl, hstep, h⟩
      · cases h
      · cases h

/-- The command `c` returns in a halted state, which its steps reach. -/
theorem halted_and_run_of_continueRun (h : continueRun n s = some (.next t)) :
    (∃ r, t.status = .halted r) ∧ ∃ k, k ≤ n ∧ Host.Core.run core k s = .next t := by
  induction n using Nat.strongRecOn generalizing s with
  | ind n ih =>
    obtain ⟨hhalted, rfl⟩ | ⟨m, u, rfl, hstep, hrest⟩ := continueRun_cases h
    · exact ⟨hhalted, 0, Nat.zero_le n, rfl⟩
    · obtain ⟨hhalted, k, hk, hreach⟩ := ih m (Nat.lt_succ_self m) hrest
      exact ⟨hhalted, k + 1, Nat.succ_le_succ hk, (run_succ hstep k).trans hreach⟩

/-- The command `c` returns where the run halts, if its bound lasts until then. -/
theorem continueRun_of_run_halted (hkn : k ≤ n) (h : Host.Core.run core k s = .next t) (hhalted : t.status = .halted r) :
    continueRun n s = some (.next t) := by
  induction k generalizing s n with
  | zero =>
    cases h
    exact continueRun_of_halted hhalted n
  | succ k ih =>
    obtain ⟨u, hstep, hrest⟩ := step_of_run_succ h
    obtain ⟨m, rfl⟩ := Nat.exists_eq_add_of_le' (Nat.one_le_of_lt hkn)
    rw [continueRun_succ hstep]
    exact ih (Nat.le_of_succ_le_succ hkn) hrest

/-! ### The command `x` (R58, R264) -/

@[simp] theorem examine_length (s : State) (a : Word) (n : Nat) : (examine s a n).length = n := by
  induction n generalizing a with
  | zero => rfl
  | succ n ih => rw [examine, List.length_cons, ih]

/-- The `k`-th byte of `x` is that at the address plus `k`, modulo 2^32. -/
theorem examine_getElem? (s : State) (a : Word) (h : k < n) :
    (examine s a n)[k]? = some (s.byteAt (a + BitVec.ofNat 32 k)) := by
  induction n generalizing a k with
  | zero => exact absurd h (Nat.not_lt_zero k)
  | succ n ih =>
    cases k with
    | zero => simp [examine]
    | succ k =>
      have haddr : a + BitVec.ofNat 32 (k + 1) = a + 1 + BitVec.ofNat 32 k := by
        rw [BitVec.add_assoc, Nat.add_comm, BitVec.ofNat_add]
        rfl
      rw [examine, List.getElem?_cons_succ, ih _ (Nat.lt_of_succ_lt_succ h), haddr]

end Sys2Proof.Machine

namespace Sys2Proof

open Machine

/-- Settles O40: the image's bytes are placed in order, so the last one at an address is what memory reads there. -/
theorem launchStateIsTheLoaders : Obligations.LaunchStateIsTheLoaders := by
  intro l
  have hother : ∀ q : RegIdx, q ≠ 0#5 → (State.launch l).reg q = l.gprInit[q.toNat]'(q.isLt) :=
    fun q hq => (State.reg_launch l q).trans (if_neg hq)
  exact ⟨rfl, State.reg_launch l 0#5, hother, rfl, rfl, rfl, rfl, rfl, Memory.read_ofImage l.memInit⟩

/-- Settles O52: the states of the run are those its steps reach, by induction on the count of the burst. -/
theorem burstStopsAtCountHaltOrTrap : Obligations.BurstStopsAtCountHaltOrTrap := by
  intro n s t hburst
  obtain ⟨k, hk, hchain, hend⟩ := stepChain_of_burst hburst
  exact ⟨k, s.afterSteps, hk, rfl, hchain.reaches, hchain.steps, hchain.untrapped, hend⟩

/-- Settles O53: `c` and the run take the same steps, one by induction on the bound, the other on the steps of the run. -/
theorem continueRunsUntilTheHalt : Obligations.ContinueRunsUntilTheHalt :=
  ⟨fun _ _ _ => halted_and_run_of_continueRun, fun _ _ _ _ _ => continueRun_of_run_halted⟩

/-- Settles O54: `x` reads byte after byte, and `info r` copies the fields. -/
theorem hostReadsRegistersAndMemory : Obligations.HostReadsRegistersAndMemory :=
  fun s a n => ⟨examine_length s a n, fun _ hk => examine_getElem? s a hk, fun _ => rfl, rfl, rfl, rfl, rfl, rfl⟩

/-- Settles O41: the reset state is the launch that places 0 in every register and nothing in memory. -/
theorem resetStateValues : Obligations.ResetStateValues := by
  have hcsr : ∀ c, State.reset.csr c = 0#32 := fun c => by cases c <;> rfl
  exact ⟨rfl, State.reg_reset, rfl, hcsr, rfl, rfl, rfl, rfl, fun _ => rfl⟩

end Sys2Proof
end
